-- ==== Sys2Proof/Word.lean ====
section
/-! DEFINITION. The word types of the block (00_scope.md R7, 30_encoding.md R70, R78). -/

namespace Sys2Proof

/-- One byte of the raw buffer (20_memory.md R50). -/
abbrev Byte := BitVec 8

/-- One line symbol, one character of a line, `CW` = 8 bits (00_scope.md R6). -/
abbrev Symbol := BitVec 8

/-- One command word `cw[15:0]` (30_encoding.md R70, R72). -/
abbrev CommandWord := BitVec 16

/-- One response word `rw[35:0]` (30_encoding.md R78). -/
abbrev ResponseWord := BitVec 36

end Sys2Proof
end

