-- ==== Sys2Proof/Syntax.lean ====
section
/-! DEFINITION. The nine commands of the block: one constructor per row of spec/opcode_table.json
(30_encoding.md R72). Operands are the unsigned fields of R75, taken as they stand in the word. -/

namespace Sys2Proof

/-- A command with its operand (30_encoding.md R72, R75). -/
inductive Instr where
  /-- `FSYM c`: push one line symbol (40_framer.md R101). -/
  | fsym (c : Symbol)
  /-- `FEOL`: end of line (40_framer.md R103). -/
  | feol
  /-- `UBEGIN m`: start a buffer in scheme `m`; 3 is no scheme (41_unpacker.md R140). -/
  | ubegin (m : BitVec 2)
  /-- `UPUSH b`: append one raw byte (41_unpacker.md R142). -/
  | upush (b : Byte)
  /-- `UFAIL`: mark the payload malformed (41_unpacker.md R144). -/
  | ufail
  /-- `UCNT`: report the counts (41_unpacker.md R151). -/
  | ucnt
  /-- `UGET i`: read sample `i` (41_unpacker.md R153). -/
  | uget (i : BitVec 12)
  /-- `URUN`: decode the whole buffer (41_unpacker.md R155). -/
  | urun
  /-- `RDSR r`: read status register `r` (42_system.md R190). -/
  | rdsr (r : BitVec 2)
  deriving DecidableEq, Repr

end Sys2Proof
end

