-- ==== Sys2Proof/WellFormed.lean ====
section
/-! DEFINITION. Which instruction terms are commands of the block (30_encoding.md R73): every operand has the width
of its field by its type, so the one check left is that `UBEGIN` names a scheme. -/

namespace Sys2Proof

/-- The term spells a command: `m != 3` for `UBEGIN` (30_encoding.md R73, R86 (d)). -/
def Instr.wf : Instr → Bool
  | .fsym _ => true
  | .feol => true
  | .ubegin m => m != 3#2
  | .upush _ => true
  | .ufail => true
  | .ucnt => true
  | .uget _ => true
  | .urun => true
  | .rdsr _ => true

end Sys2Proof
end

