-- ==== Sys2Proof/Decode.lean ====
section
/-! DEFINITION. Command words to commands and back (30_encoding.md R72, R73, R75, R86), and the table of R73 as data. -/

namespace Sys2Proof

/-- Why a command word spells no command: the five cases of 30_encoding.md R86. -/
inductive IllegalWord where
  /-- (a) `op` selects no command. -/
  | noCommand (op : BitVec 4)
  /-- (b) `FSYM` or `UPUSH` with a bit of `arg[11:8]` set. -/
  | valueBits
  /-- (c) `FEOL`, `UFAIL`, `UCNT` or `URUN` with a bit of `arg` set. -/
  | operandBits
  /-- (d) `UBEGIN` with a bit of `arg[11:2]` set or with `m = 3`. -/
  | ubeginOperand
  /-- (e) `RDSR` with a bit of `arg[11:2]` set. -/
  | rdsrOperand
  deriving DecidableEq, Repr

/-- `op = cw[15:12]` (30_encoding.md R72). -/
def opOf (cw : CommandWord) : BitVec 4 := cw.extractLsb' 12 4

/-- `arg = cw[11:0]` (30_encoding.md R72). -/
def argOf (cw : CommandWord) : BitVec 12 := cw.extractLsb' 0 12

/-- Format S: `arg[11:8]` must be zero, the value is `arg[7:0]` (30_encoding.md R73). -/
def decodeS (cw : CommandWord) (k : BitVec 8 → Instr) : Except IllegalWord Instr :=
  if (argOf cw).extractLsb' 8 4 = 0#4 then .ok (k ((argOf cw).extractLsb' 0 8)) else .error .valueBits

/-- Format Z: all of `arg` must be zero (30_encoding.md R73). -/
def decodeZ (cw : CommandWord) (i : Instr) : Except IllegalWord Instr :=
  if argOf cw = 0#12 then .ok i else .error .operandBits

/-- The must-be-zero bits `arg[11:2]` of format M (30_encoding.md R73). -/
def selectorMbz (cw : CommandWord) : BitVec 10 := (argOf cw).extractLsb' 2 10

/-- The selector `arg[1:0]` of format M (30_encoding.md R73). -/
def selectorOf (cw : CommandWord) : BitVec 2 := (argOf cw).extractLsb' 0 2

/-- The command a word spells, or why it spells none; total on the 65536 words (30_encoding.md R72, R73, R86). -/
def decode (cw : CommandWord) : Except IllegalWord Instr :=
  match (opOf cw).toNat with
  | 0x0 => decodeS cw .fsym
  | 0x1 => decodeZ cw .feol
  | 0x4 => if selectorMbz cw = 0#10 ∧ selectorOf cw ≠ 3#2 then .ok (.ubegin (selectorOf cw)) else .error .ubeginOperand
  | 0x5 => decodeS cw .upush
  | 0x6 => decodeZ cw .ufail
  | 0x7 => decodeZ cw .ucnt
  | 0x8 => .ok (.uget (argOf cw))
  | 0x9 => decodeZ cw .urun
  | 0xC => if selectorMbz cw = 0#10 then .ok (.rdsr (selectorOf cw)) else .error .rdsrOperand
  | _ => .error (.noCommand (opOf cw))

/-- The opcode of a command (30_encoding.md R72). -/
def Instr.op : Instr → BitVec 4
  | .fsym _ => 0x0#4
  | .feol => 0x1#4
  | .ubegin _ => 0x4#4
  | .upush _ => 0x5#4
  | .ufail => 0x6#4
  | .ucnt => 0x7#4
  | .uget _ => 0x8#4
  | .urun => 0x9#4
  | .rdsr _ => 0xC#4

/-- The operand field of a command, must-be-zero bits zero (30_encoding.md R73). -/
def Instr.arg : Instr → BitVec 12
  | .fsym c => 0#4 ++ c
  | .feol => 0#12
  | .ubegin m => 0#10 ++ m
  | .upush b => 0#4 ++ b
  | .ufail => 0#12
  | .ucnt => 0#12
  | .uget i => i
  | .urun => 0#12
  | .rdsr r => 0#10 ++ r

/-- The word of a command: `op` in bits 15:12, `arg` in bits 11:0 (30_encoding.md R72, R73). -/
def encode (i : Instr) : CommandWord := i.op ++ i.arg

/-- One line of the pattern table of 30_encoding.md R73. -/
structure TableRow where
  mnemonic : String
  matchBits : CommandWord
  mask : CommandWord
  deriving DecidableEq, Repr

/-- The pattern table of 30_encoding.md R73, line by line. -/
def commandTable : List TableRow :=
  [⟨"FSYM", 0x0000, 0xFF00⟩, ⟨"FEOL", 0x1000, 0xFFFF⟩, ⟨"UBEGIN", 0x4000, 0xFFFC⟩,
   ⟨"UPUSH", 0x5000, 0xFF00⟩, ⟨"UFAIL", 0x6000, 0xFFFF⟩, ⟨"UCNT", 0x7000, 0xFFFF⟩,
   ⟨"UGET", 0x8000, 0xF000⟩, ⟨"URUN", 0x9000, 0xFFFF⟩, ⟨"RDSR", 0xC000, 0xFFFC⟩]

/-- `(cw & mask) = match` (30_encoding.md R73). -/
def TableRow.hits (row : TableRow) (cw : CommandWord) : Bool := (cw &&& row.mask) == row.matchBits

/-- The mnemonic of a command (30_encoding.md R72). -/
def Instr.mnemonic : Instr → String
  | .fsym _ => "FSYM"
  | .feol => "FEOL"
  | .ubegin _ => "UBEGIN"
  | .upush _ => "UPUSH"
  | .ufail => "UFAIL"
  | .ucnt => "UCNT"
  | .uget _ => "UGET"
  | .urun => "URUN"
  | .rdsr _ => "RDSR"

/-- The instruction the decoder reads from a word whose bits `nbits-1 .. 0` are those of `w` and whose other bits are
0. Every command is one 16-bit word (30_encoding.md R90), so a longer one spells none. -/
def decodeTableWord (nbits w : Nat) : Option Instr :=
  if w % 2 ^ nbits < 2 ^ 16 then (decode (BitVec.ofNat 16 (w % 2 ^ nbits))).toOption else none

end Sys2Proof
end

