-- ==== Sys2Proof/Config.lean ====
section
/-! DEFINITION. The parameters of this hardware, at the values 00_scope.md R6 gives them. There is no free value:
the spec leaves no result of a command open (00_scope.md R9). -/

namespace Sys2Proof.Config

/-- `2^POSW - 1`: the most symbols a line may hold, and where `pos` stops (00_scope.md R6, `POSW` = 16). -/
abbrev posMax : BitVec 16 := 65535#16

/-- `0xFFFFFFFF`: where `ERRCNT` saturates (00_scope.md R6, `CNTW` = 32; 10_state.md R25). -/
abbrev errcntMax : BitVec 32 := 0xFFFFFFFF#32

/-- `RB_BYTES`: the capacity of the raw buffer in bytes (00_scope.md R6). -/
abbrev rbBytes : Nat := 4096

/-- `K` of scheme `T12X5`: percentiles per band (00_scope.md R6). -/
abbrev percentiles : Nat := 5

/-- `CSTEP12` in units of 1/64 dB: 0.046875 dB (00_scope.md R6, 41_unpacker.md R160). -/
abbrev cstep12 : BitVec 16 := 3#16

/-- `CSTEP8` in units of 1/64 dB: 0.75 dB (00_scope.md R6, 41_unpacker.md R160). -/
abbrev cstep8 : BitVec 16 := 48#16

/-- `CLOW12` and `CLOW8` in units of 1/64 dB: -192.0 dB, which is `-12288` as 16 bits (00_scope.md R6,
41_unpacker.md R160). -/
abbrev clow : BitVec 16 := 0xD000#16

end Sys2Proof.Config
end

