-- ==== Sys2Proof/Machine/State.lean ====
section
/-! DEFINITION. The state of the block as plain data (10_state.md), the types its fields use, the reasons a step could
stop, and the state after reset (10_state.md R41). -/

namespace Sys2Proof.Machine

/-- A fault. The block has none, so this type has no constructor: "There is no trap, no stuck state and no undefined
result inside the block" (00_scope.md R9). Nothing raises one (log entry 3). -/
inductive Fault
  deriving DecidableEq, Repr

/-- Why a step gives no meaning. -/
inductive Refusal where
  /-- An instruction the model gives no meaning; raised only by an arm of `exec`, and by none now. Safe: a claim about
  it could not be proved. -/
  | notModelled (mnemonic : String)
  deriving DecidableEq, Repr

/-- `ph`, the framer's phase; the code 3 never occurs (10_state.md R23). -/
inductive Phase where
  | seek
  | body
  | tail
  deriving DecidableEq, Repr

/-- `mode`, the unpacking scheme; the code 3 never occurs (10_state.md R27). -/
inductive Scheme where
  | t12
  | t12x5
  | b8
  deriving DecidableEq, Repr

/-- The status of an evaluated line (30_encoding.md R79); `NONE` is no result of a line. -/
inductive Status where
  | ok
  | checksum
  | framing
  deriving DecidableEq, Repr

/-- The cause of a framing failure (40_framer.md R105). -/
inductive Cause where
  | none
  | noDollar
  | noStar
  | shortSuffix
  | badHex
  | trailing
  | overlong
  deriving DecidableEq, Repr

/-- Why a `UGET` has no value (30_encoding.md R84). -/
inductive NoValue where
  | invalid
  | range
  deriving DecidableEq, Repr

/-- The result of a line (`computed` is the spec's `calc`): the record `(status, cause, calc, rx, start, len)` of 40_framer.md R100. -/
structure LineResult where
  status : Status
  cause : Cause
  computed : BitVec 8
  rx : BitVec 8
  start : BitVec 16
  len : BitVec 16
  deriving DecidableEq, Repr

/-- A response by its kind and fields, before it is laid out in a word (30_encoding.md R78 to R87). -/
inductive Response where
  | fres (r : LineResult)
  | fpos (start len : BitVec 16)
  | fcnt (errcnt : BitVec 32)
  | uhdr (valid : Bool) (mode : Scheme) (k : BitVec 3) (rem : BitVec 4) (d : BitVec 13)
  | usmp (db : BitVec 16) (code : BitVec 12)
  | unone (reason : NoValue) (i : BitVec 12)
  | sreg (value : BitVec 32)
  | eill (cw : CommandWord)
  deriving DecidableEq, Repr

/-- What the host does to the block at one moment (30_encoding.md R70, 70_reset_and_hazards.md R230, R237). -/
inductive HostEvent where
  /-- A command word is accepted. -/
  | command (cw : CommandWord)
  /-- A clock edge with `rst = 1`. -/
  | reset
  /-- The host takes the response word presented. -/
  | take
  deriving DecidableEq, Repr

/-- The eleven per-line framer registers (10_state.md R23). -/
structure LineRegs where
  ph : Phase
  pos : BitVec 16
  dpos : BitVec 16
  spos : BitVec 16
  acc : BitVec 8
  snap : BitVec 8
  tcnt : BitVec 2
  h1 : Symbol
  h0 : Symbol
  tailOk : Bool
  ovf : Bool
  deriving DecidableEq, Repr

/-- The raw buffer's bytes: (address, byte) pairs in rising order of address, a byte equal to `rbUnlisted` not listed
(20_memory.md R50). -/
abbrev Memory := List Host.Cell

/-- The unpacker's registers and its buffer (10_state.md R27). `L` is a 13-bit register that holds 0 to 4096. -/
structure Unpacker where
  rb : Memory
  L : Fin 4097
  mode : Scheme
  bad : Bool
  uovf : Bool
  deriving DecidableEq, Repr

/-- The state of the block. `rsp` is the response stream: words emitted and not yet taken, oldest first (10_state.md
R41). `inbox` is the model's own: what the host will do, next first. -/
structure State where
  line : LineRegs
  errcnt : BitVec 32
  flast : BitVec 24
  unp : Unpacker
  ill : Bool
  illcw : CommandWord
  rsp : List ResponseWord
  inbox : List HostEvent
  deriving DecidableEq, Repr

/-- The line-start state of the per-line registers (10_state.md R23, 40_framer.md R104). -/
def LineRegs.start : LineRegs where
  ph := .seek
  pos := 0
  dpos := 0
  spos := 0
  acc := 0
  snap := 0
  tcnt := 0
  h1 := 0
  h0 := 0
  tailOk := true
  ovf := false

/-- The unpacker after reset: an empty valid buffer in scheme `T12` (10_state.md R41). No byte is listed: the spec leaves
the content of `RB` unspecified (log entry 1). -/
def Unpacker.reset : Unpacker where
  rb := []
  L := 0
  mode := .t12
  bad := false
  uovf := false

/-- The block right after reset (10_state.md R41; log entry 7). -/
def State.reset : State where
  line := .start
  errcnt := 0
  flast := 0
  unp := .reset
  ill := false
  illcw := 0
  rsp := []
  inbox := []

end Sys2Proof.Machine
end

