-- ==== Sys2Proof/Machine/Operands.lean ====
section
/-! DEFINITION. The operands of the commands as the block reads them: the symbol classes of 10_state.md R22, the codes of
the named values, the raw buffer and its nibbles (20_memory.md R50 to R55), the sample codes and their decibel values
(41_unpacker.md R158, R160). -/

namespace Sys2Proof.Machine

/-- `SYM_DOLLAR` (10_state.md R22). -/
def symDollar : Symbol := 0x24#8

/-- `SYM_STAR` (10_state.md R22). -/
def symStar : Symbol := 0x2A#8

/-- `ishex(c)`: a digit or an upper-case letter `A` to `F`, no lower-case letter (10_state.md R22, 40_framer.md R108). -/
def isHex (c : Symbol) : Bool := (0x30#8 ≤ c && c ≤ 0x39#8) || (0x41#8 ≤ c && c ≤ 0x46#8)

/-- `hexval(c)`, used only where `isHex c` (10_state.md R22). -/
def hexVal (c : Symbol) : BitVec 4 :=
  if c ≤ 0x39#8 then (c - 0x30#8).setWidth 4 else (c - 0x41#8 + 10#8).setWidth 4

/-- `iseol(c)`: CR or LF (10_state.md R22). -/
def isEol (c : Symbol) : Bool := c == 0x0D#8 || c == 0x0A#8

/-- The code of a phase in the 2-bit register `ph` (10_state.md R23). -/
def Phase.bits : Phase → BitVec 2
  | .seek => 0
  | .body => 1
  | .tail => 2

/-- The code of a scheme in the 2-bit register `mode` (10_state.md R27). -/
def Scheme.bits : Scheme → BitVec 2
  | .t12 => 0
  | .t12x5 => 1
  | .b8 => 2

/-- The scheme an operand of `UBEGIN` names; 3 names none (41_unpacker.md R140). -/
def Scheme.ofOperand (m : BitVec 2) : Option Scheme :=
  match m.toNat with
  | 0 => some .t12
  | 1 => some .t12x5
  | 2 => some .b8
  | _ => none

/-- The code of a status (30_encoding.md R79). -/
def Status.bits : Status → BitVec 2
  | .ok => 1
  | .checksum => 2
  | .framing => 3

/-- The code of a cause (40_framer.md R105). -/
def Cause.bits : Cause → BitVec 3
  | .none => 0
  | .noDollar => 1
  | .noStar => 2
  | .shortSuffix => 3
  | .badHex => 4
  | .trailing => 5
  | .overlong => 6

/-- The code of a reason (30_encoding.md R84). -/
def NoValue.bits : NoValue → BitVec 2
  | .invalid => 1
  | .range => 2

/-- What a buffer address with no listed byte reads as: a choice of the model, since the spec leaves the content of `RB`
unspecified and no rule can observe it (20_memory.md R58; log entry 1). DESIGN CHOICE, unsafe. -/
def rbUnlisted : Byte := 0#8

/-- `MemRead(a, 1)`: the byte `RB[a]` (00_scope.md R8, 20_memory.md R53). -/
def Memory.read : Memory → Nat → Byte
  | [], _ => rbUnlisted
  | c :: rest, a => if c.1 = a then c.2 else Memory.read rest a

/-- `MemWrite(a, 1, v)`: `RB[a] <- v`, keeping the canonical form (00_scope.md R8, 20_memory.md R53). -/
def Memory.write : Memory → Nat → Byte → Memory
  | [], a, v => if v = rbUnlisted then [] else [(a, v)]
  | c :: rest, a, v =>
    if a < c.1 then (if v = rbUnlisted then c :: rest else (a, v) :: c :: rest)
    else if a = c.1 then (if v = rbUnlisted then rest else (a, v) :: rest)
    else c :: Memory.write rest a v

/-- The canonical form of the buffer: addresses strictly rising, all of them addresses of the 4096-byte buffer
(20_memory.md R50), and no byte listed that an unlisted address reads as. -/
abbrev Memory.wf (m : Memory) : Prop :=
  m.Pairwise (fun x y => x.1 < y.1) ∧ ∀ c ∈ m, c.1 < Config.rbBytes ∧ c.2 ≠ rbUnlisted

/-- `nib(n) = (RB[n >> 1] >> (4 * (n & 1))) & 0xF` (20_memory.md R54). -/
def Memory.nib (m : Memory) (n : Nat) : BitVec 4 :=
  ((m.read (n / 2) >>> (4 * (n % 2))) &&& 0xF#8).setWidth 4

/-- `code12(i)`: nibbles `3i`, `3i+1`, `3i+2`, the lowest first (20_memory.md R55, 41_unpacker.md R158). -/
def Memory.code12 (m : Memory) (i : Nat) : BitVec 12 :=
  (m.nib (3 * i)).setWidth 12 ||| ((m.nib (3 * i + 1)).setWidth 12 <<< 4) ||| ((m.nib (3 * i + 2)).setWidth 12 <<< 8)

/-- `code(i)`, the code of sample `i` in the scheme (41_unpacker.md R158). -/
def Unpacker.code (u : Unpacker) (i : Nat) : BitVec 12 :=
  match u.mode with
  | .t12 => u.rb.code12 i
  | .t12x5 => u.rb.code12 i
  | .b8 => (u.rb.read i).setWidth 12

/-- The decibel value of a code, in units of 1/64 dB as 16 bits (41_unpacker.md R160). -/
def Scheme.db (m : Scheme) (code : BitVec 12) : BitVec 16 :=
  match m with
  | .t12 => Config.clow + Config.cstep12 * code.setWidth 16
  | .t12x5 => Config.clow + Config.cstep12 * code.setWidth 16
  | .b8 => Config.clow + Config.cstep8 * code.setWidth 16

/-- The response `USMP` of sample `i` (30_encoding.md R83). -/
def Unpacker.sample (u : Unpacker) (i : Nat) : Response :=
  .usmp (u.mode.db (u.code i)) (u.code i)

end Sys2Proof.Machine
end

