-- ==== Sys2Proof/Machine/Flags.lean ====
section
/-! DEFINITION. What the block computes from its sticky bits and registers: the classification of a line (40_framer.md
R103, R105), the count of failures (R107), the derived quantities of a buffer (41_unpacker.md R150) and the status
registers (10_state.md R33). The block has no condition codes (10_state.md R30). -/

namespace Sys2Proof.Machine

/-- The result of a line that failed framing: the fields without meaning are zero (30_encoding.md R79, R80). -/
def LineResult.failed (c : Cause) : LineResult where
  status := .framing
  cause := c
  computed := 0
  rx := 0
  start := 0
  len := 0

/-- The value of the suffix symbols, the first the more significant digit (40_framer.md R106). -/
def suffixValue (h1 h0 : Symbol) : BitVec 8 := hexVal h1 ++ hexVal h0

/-- The result of a well-framed line: `OK` iff the parsed value equals the computed XOR (40_framer.md R103). -/
def LineResult.framed (computed rx : BitVec 8) (start len : BitVec 16) : LineResult where
  status := if rx = computed then .ok else .checksum
  cause := .none
  computed := computed
  rx := rx
  start := start
  len := len

/-- The classification `FEOL` makes, the conditions in the order of 40_framer.md R105 (40_framer.md R103). -/
def LineRegs.result (r : LineRegs) : LineResult :=
  if r.ovf = true then .failed .overlong
  else if r.ph = .seek then .failed .noDollar
  else if r.ph = .body then .failed .noStar
  else if r.tcnt < 2#2 then .failed .shortSuffix
  else if ¬(isHex r.h1 = true ∧ isHex r.h0 = true) then .failed .badHex
  else if r.tailOk = false then .failed .trailing
  else .framed r.snap (suffixValue r.h1 r.h0) (r.dpos + 1#16) (r.spos - r.dpos - 1#16)

/-- `ERRCNT` after an `FEOL` of this status: one more for a checksum failure, never above its greatest value
(40_framer.md R107). -/
def countFailure (st : Status) (n : BitVec 32) : BitVec 32 :=
  if st = .checksum ∧ n ≠ Config.errcntMax then n + 1#32 else n

/-- The 24 bits `{rx, calc, 0b000, cause, status}` of `flast` (10_state.md R26). -/
def LineResult.summary (r : LineResult) : BitVec 24 :=
  r.rx ++ r.computed ++ 0#3 ++ r.cause.bits ++ r.status.bits

/-- `K` (41_unpacker.md R150). -/
def Unpacker.K (u : Unpacker) : Nat :=
  match u.mode with
  | .t12 => 1
  | .t12x5 => Config.percentiles
  | .b8 => 1

/-- `valid` (41_unpacker.md R150). -/
def Unpacker.valid (u : Unpacker) : Bool := !u.bad && !u.uovf

/-- `D`, the band count (41_unpacker.md R150). -/
def Unpacker.D (u : Unpacker) : Nat :=
  if u.valid = false then 0
  else
    match u.mode with
    | .t12 => 2 * u.L.val / 3
    | .t12x5 => 2 * u.L.val / 15
    | .b8 => u.L.val

/-- `REM`, the nibbles of the buffer that no sample uses (41_unpacker.md R150). -/
def Unpacker.REM (u : Unpacker) : Nat :=
  if u.valid = false then 0
  else
    match u.mode with
    | .t12 => 2 * u.L.val - 3 * u.D
    | .t12x5 => 2 * u.L.val - 15 * u.D
    | .b8 => 0

/-- `N = K * D`, the number of samples (41_unpacker.md R150). -/
def Unpacker.N (u : Unpacker) : Nat := u.K * u.D

/-- The response `UHDR` of the buffer as it stands (30_encoding.md R82). -/
def Unpacker.header (u : Unpacker) : Response :=
  .uhdr u.valid u.mode (BitVec.ofNat 3 u.K) (BitVec.ofNat 4 u.REM) (BitVec.ofNat 13 u.D)

/-- The response of `UGET i`: no value for an invalid buffer, checked first, then for an index not below `N`, else the
sample (41_unpacker.md R153). -/
def Unpacker.answer (u : Unpacker) (i : BitVec 12) : Response :=
  if u.valid = false then .unone .invalid i
  else if u.N ≤ i.toNat then .unone .range i
  else u.sample i.toNat

/-- The responses of `URUN`: the header, then the samples in index order (41_unpacker.md R155). -/
def Unpacker.decoded (u : Unpacker) : List Response :=
  u.header :: (List.range u.N).map u.sample

/-- `SR[r]`, the four status registers as the formulas of 10_state.md R33 give them. -/
def State.statusReg (s : State) (r : BitVec 2) : BitVec 32 :=
  match r.toNat with
  | 0 => s.errcnt
  | 1 => s.flast.setWidth 32
  | 2 => 0#10 ++ BitVec.ofBool s.unp.uovf ++ BitVec.ofBool s.unp.bad ++ 0#2 ++ s.unp.mode.bits ++ 0#3
      ++ BitVec.ofNat 13 s.unp.L.val
  | _ => s.illcw ++ 0#15 ++ BitVec.ofBool s.ill

end Sys2Proof.Machine
end

