-- ==== Sys2Proof/Machine/Ops.lean ====
section
/-! DEFINITION. The shared operations on the state: laying a response out in its word and emitting it (30_encoding.md
R78 to R87), the effect of an illegal command (R86), and what the host does (70_reset_and_hazards.md R230, R241).
The block has no exception entry and no return from one (60_exceptions.md R206, R207): an illegal command is its one
operation of that kind, and it transfers nothing. -/

namespace Sys2Proof.Machine

/-- `rk = rw[35:32]`, the response kind (30_encoding.md R78). -/
def Response.kind : Response → BitVec 4
  | .fres _ => 0x1
  | .fpos _ _ => 0x2
  | .fcnt _ => 0x3
  | .uhdr _ _ _ _ _ => 0x4
  | .usmp _ _ => 0x5
  | .unone _ _ => 0x6
  | .sreg _ => 0x8
  | .eill _ => 0xF

/-- `rd = rw[31:0]`, the response data, bits of no field zero (30_encoding.md R79 to R87). -/
def Response.data : Response → BitVec 32
  | .fres r => 0#8 ++ r.summary
  | .fpos start len => len ++ start
  | .fcnt n => n
  | .uhdr valid mode k rem d => BitVec.ofBool valid ++ 0#1 ++ mode.bits ++ 0#1 ++ k ++ 0#4 ++ rem ++ 0#3 ++ d
  | .usmp db code => 0#4 ++ code ++ db
  | .unone reason i => 0#4 ++ i ++ 0#14 ++ reason.bits
  | .sreg v => v
  | .eill cw => 0#16 ++ cw

/-- The 36-bit word of a response (30_encoding.md R78). -/
def Response.word (r : Response) : ResponseWord := r.kind ++ r.data

/-- `emit`, for responses in the order listed: each goes to the end of the response stream (00_scope.md R8, 20_memory.md
R65). -/
def State.emit (s : State) (rs : List Response) : State := { s with rsp := s.rsp ++ rs.map Response.word }

/-- `raise IllegalCommand(cw)` (30_encoding.md R86): the first offender is recorded, `ill` is set, `EILL` is emitted. -/
def State.illegalCommand (s : State) (cw : CommandWord) : State :=
  ({ s with illcw := if s.ill then s.illcw else cw, ill := true }).emit [.eill cw]

/-- A clock edge with `rst = 1`: every state element takes its reset value and the response stream is emptied
(70_reset_and_hazards.md R230). What the host will do next is no state of the block and stays. -/
def State.resetEdge (s : State) : State := { State.reset with inbox := s.inbox }

/-- The host takes the oldest response word, if one is presented (30_encoding.md R70, 70_reset_and_hazards.md R241). -/
def State.takeResponse (s : State) : State := { s with rsp := s.rsp.tail }

end Sys2Proof.Machine
end

