-- ==== Sys2Proof/Machine/Framer.lean ====
section
/-! DEFINITION. The framer unit: `FSYM` and `FEOL` (40_framer.md). -/

namespace Sys2Proof.Machine

/-- A `*` after the `$`: it is counted and folded into `acc`, and `snap` keeps `acc` from before it (40_framer.md R101).
`BODY` and `TAIL` do the same here. -/
def LineRegs.pushStar (r : LineRegs) : LineRegs :=
  { r with
    pos := r.pos + 1#16
    ph := .tail
    spos := r.pos
    snap := r.acc
    acc := r.acc ^^^ symStar
    tcnt := 0#2
    tailOk := true }

/-- A symbol other than `*` in the phase `TAIL`: the first two are kept, later ones are checked (40_framer.md R101). -/
def LineRegs.pushTail (r : LineRegs) (c : Symbol) : LineRegs :=
  let r' := { r with pos := r.pos + 1#16, acc := r.acc ^^^ c }
  match r.tcnt.toNat with
  | 0 => { r' with h1 := c, tcnt := 1#2 }
  | 1 => { r' with h0 := c, tcnt := 2#2 }
  | _ => { r' with tcnt := 3#2, tailOk := r.tailOk && isEol c }

/-- The per-line registers after one more symbol (40_framer.md R101). -/
def LineRegs.push (r : LineRegs) (c : Symbol) : LineRegs :=
  if r.ovf = true then r
  else if r.pos = Config.posMax then { r with ovf := true }
  else
    match r.ph with
    | .seek =>
      if c = symDollar then { r with pos := r.pos + 1#16, ph := .body, dpos := r.pos }
      else { r with pos := r.pos + 1#16 }
    | .body => if c = symStar then r.pushStar else { r with pos := r.pos + 1#16, acc := r.acc ^^^ c }
    | .tail => if c = symStar then r.pushStar else r.pushTail c

/-- `FSYM c` (40_framer.md R101). -/
def execFsym (c : Symbol) (s : State) : Host.Outcome State Fault Refusal :=
  .next { s with line := s.line.push c }

/-- `FEOL` (40_framer.md R103, R104): classify, count, report, record, clear. -/
def execFeol (s : State) : Host.Outcome State Fault Refusal :=
  let r := s.line.result
  let n := countFailure r.status s.errcnt
  .next (({ s with line := .start, errcnt := n, flast := r.summary }).emit [.fres r, .fpos r.start r.len, .fcnt n])

end Sys2Proof.Machine
end

