-- ==== Sys2Proof/Machine/System.lean ====
section
/-! DEFINITION. The system command `RDSR` (42_system.md). -/

namespace Sys2Proof.Machine

/-- `RDSR r` (42_system.md R190). -/
def execRdsr (r : BitVec 2) (s : State) : Host.Outcome State Fault Refusal :=
  .next (s.emit [.sreg (s.statusReg r)])

end Sys2Proof.Machine
end

