-- ==== Sys2Proof/Machine/Unpacker.lean ====
section
/-! DEFINITION. The unpacker unit: `UBEGIN`, `UPUSH`, `UFAIL`, `UCNT`, `UGET`, `URUN` (41_unpacker.md). -/

namespace Sys2Proof.Machine

/-- A new buffer in a scheme; the bytes of `RB` are not touched (41_unpacker.md R140). -/
def Unpacker.begin (u : Unpacker) (m : Scheme) : Unpacker :=
  { u with mode := m, L := 0, bad := false, uovf := false }

/-- One more byte, at address `L`; a full buffer drops it and is poisoned (41_unpacker.md R142). -/
def Unpacker.push (u : Unpacker) (b : Byte) : Unpacker :=
  if h : u.L.val < Config.rbBytes then
    { u with rb := u.rb.write u.L.val b, L := ⟨u.L.val + 1, Nat.succ_lt_succ h⟩ }
  else { u with uovf := true }

/-- `UBEGIN m` (41_unpacker.md R140). A term with `m = 3` is the illegal command `0x4003` (30_encoding.md R86 (d)); no
word decodes to it (log entry 5). -/
def execUbegin (m : BitVec 2) (s : State) : Host.Outcome State Fault Refusal :=
  match Scheme.ofOperand m with
  | some sch => .next { s with unp := s.unp.begin sch }
  | none => .next (s.illegalCommand 0x4003#16)

/-- `UPUSH b` (41_unpacker.md R142). -/
def execUpush (b : Byte) (s : State) : Host.Outcome State Fault Refusal :=
  .next { s with unp := s.unp.push b }

/-- `UFAIL` (41_unpacker.md R144). -/
def execUfail (s : State) : Host.Outcome State Fault Refusal :=
  .next { s with unp := { s.unp with bad := true } }

/-- `UCNT` (41_unpacker.md R151). -/
def execUcnt (s : State) : Host.Outcome State Fault Refusal :=
  .next (s.emit [s.unp.header])

/-- `UGET i` (41_unpacker.md R153). -/
def execUget (i : BitVec 12) (s : State) : Host.Outcome State Fault Refusal :=
  .next (s.emit [s.unp.answer i])

/-- `URUN` (41_unpacker.md R155). -/
def execUrun (s : State) : Host.Outcome State Fault Refusal :=
  .next (s.emit s.unp.decoded)

end Sys2Proof.Machine
end

