-- ==== Sys2Proof/Machine/Dispatch.lean ====
section
/-! DEFINITION. The dispatch: one arm per command (30_encoding.md R72). -/

namespace Sys2Proof.Machine

def exec (i : Instr) (s : State) : Host.Outcome State Fault Refusal :=
  match i with
  | .fsym c => Sys2Proof.Machine.execFsym c s
  | .feol => Sys2Proof.Machine.execFeol s
  | .ubegin m => Sys2Proof.Machine.execUbegin m s
  | .upush b => Sys2Proof.Machine.execUpush b s
  | .ufail => Sys2Proof.Machine.execUfail s
  | .ucnt => Sys2Proof.Machine.execUcnt s
  | .uget k => Sys2Proof.Machine.execUget k s
  | .urun => Sys2Proof.Machine.execUrun s
  | .rdsr r => Sys2Proof.Machine.execRdsr r s

end Sys2Proof.Machine
end

