-- ==== Sys2Proof/Machine/Accept.lean ====
section
/-! DEFINITION. What one accepted command word, and one act of the host, does to the block (30_encoding.md R71, R86;
70_reset_and_hazards.md R230, R241). -/

namespace Sys2Proof.Machine

/-- The block accepts a command word: a word that spells a command executes it, any other is an illegal command
(00_scope.md R9, 30_encoding.md R71, R86). -/
def accept (cw : CommandWord) (s : State) : Host.Outcome State Fault Refusal :=
  match decode cw with
  | .ok i => exec i s
  | .error _ => .next (s.illegalCommand cw)

/-- What the host does at one moment (30_encoding.md R70, 70_reset_and_hazards.md R230, R241). -/
def onEvent (e : HostEvent) (s : State) : Host.Outcome State Fault Refusal :=
  match e with
  | .command cw => accept cw s
  | .reset => .next s.resetEdge
  | .take => .next s.takeResponse

end Sys2Proof.Machine
end

