-- ==== Sys2Proof/Machine/Step.lean ====
section
/-! DEFINITION. One step of the machine: the next thing the host does (log entries 2 and 6). -/

namespace Sys2Proof.Machine

/-- One step: the first event of the inbox happens; with none, the block idles with all state held
(60_exceptions.md R212, 70_reset_and_hazards.md R237). -/
def step (s : State) : Host.Outcome State Fault Refusal :=
  match s.inbox with
  | [] => .next s
  | e :: rest => onEvent e { s with inbox := rest }

/-- `s` with the word whose low `nbits` bits are those of `w` presented next on the command port. -/
def State.withFetchWord (s : State) (nbits w : Nat) : State :=
  { s with inbox := .command (BitVec.ofNat 16 (w % 2 ^ nbits)) :: s.inbox }

end Sys2Proof.Machine
end

