-- ==== Sys2Proof/Machine/Assembler.lean ====
section
/-! DEFINITION. The text form of a command stream and its pseudo-instructions (30_encoding.md R91, R92). The block never
sees it. -/

namespace Sys2Proof.Machine

/-- A piece of a source line. -/
inductive Token where
  | word (cs : List Char)
  | symbol (c : Char)
  | text (cs : List Symbol)
  | comma
  deriving DecidableEq, Repr

/-- Where the scanner of a source line stands. -/
inductive ScanMode where
  | gap
  | word (cs : List Char)
  | quote
  | quoted (c : Char)
  | text (cs : List Symbol)
  | escape (cs : List Symbol)
  | hexHigh (cs : List Symbol)
  | hexLow (cs : List Symbol) (high : Nat)
  | comment
  deriving DecidableEq, Repr

/-- A printable ASCII character (30_encoding.md R91, R92). -/
def isPrintable (c : Char) : Bool := 0x20 ≤ c.toNat && c.toNat ≤ 0x7E

/-- The code of a character as a symbol (30_encoding.md R91). -/
def symbolOf (c : Char) : Symbol := BitVec.ofNat 8 c.toNat

/-- The value of a decimal digit. -/
def decDigit (c : Char) : Option Nat :=
  if 0x30 ≤ c.toNat ∧ c.toNat ≤ 0x39 then some (c.toNat - 0x30) else none

/-- The value of a hexadecimal digit of the notation, of either case (log entry 4). -/
def hexDigitOf (c : Char) : Option Nat :=
  if 0x30 ≤ c.toNat ∧ c.toNat ≤ 0x39 then some (c.toNat - 0x30)
  else if 0x41 ≤ c.toNat ∧ c.toNat ≤ 0x46 then some (c.toNat - 0x41 + 10)
  else if 0x61 ≤ c.toNat ∧ c.toNat ≤ 0x66 then some (c.toNat - 0x61 + 10)
  else none

/-- The number the digits spell in a base, given the value before them. -/
def digits (base : Nat) (value : Char → Option Nat) : Nat → List Char → Option Nat
  | n, [] => some n
  | n, c :: cs =>
    match value c with
    | some d => digits base value (base * n + d) cs
    | none => none

/-- A decimal number, or a hexadecimal one with `0x` (30_encoding.md R91). -/
def numberOf : List Char → Option Nat
  | [] => none
  | '0' :: 'x' :: c :: cs => digits 16 hexDigitOf 0 (c :: cs)
  | c :: cs => digits 10 decDigit 0 (c :: cs)

/-- The scanner at a character outside any word, quote or comment. -/
def scanGap (c : Char) : ScanMode × List Token :=
  if c = ' ' ∨ c = '\t' then (.gap, [])
  else if c = ';' then (.comment, [])
  else if c = ',' then (.gap, [.comma])
  else if c = '"' then (.text [], [])
  else if c = '\'' then (.quote, [])
  else (.word [c], [])

/-- One character of a source line: the scanner's next mode and the pieces it completes, or `none` for an assembly error.
The escapes are those of 30_encoding.md R92. -/
def scanChar (m : ScanMode) (c : Char) : Option (ScanMode × List Token) :=
  match m with
  | .gap => some (scanGap c)
  | .word cs =>
    if c = '"' ∨ c = '\'' then none
    else if c = ' ' ∨ c = '\t' ∨ c = ';' ∨ c = ',' then some ((scanGap c).1, .word cs :: (scanGap c).2)
    else some (.word (cs ++ [c]), [])
  | .quote => if isPrintable c then some (.quoted c, []) else none
  | .quoted d => if c = '\'' then some (.gap, [.symbol d]) else none
  | .text cs =>
    if c = '"' then some (.gap, [.text cs])
    else if c = '\\' then some (.escape cs, [])
    else if isPrintable c then some (.text (cs ++ [symbolOf c]), [])
    else none
  | .escape cs =>
    if c = 'r' then some (.text (cs ++ [0x0D#8]), [])
    else if c = 'n' then some (.text (cs ++ [0x0A#8]), [])
    else if c = '\\' then some (.text (cs ++ [0x5C#8]), [])
    else if c = '"' then some (.text (cs ++ [0x22#8]), [])
    else if c = 'x' then some (.hexHigh cs, [])
    else none
  | .hexHigh cs => (hexDigitOf c).map fun h => (.hexLow cs h, [])
  | .hexLow cs h => (hexDigitOf c).map fun l => (.text (cs ++ [BitVec.ofNat 8 (16 * h + l)]), [])
  | .comment => some (.comment, [])

/-- The pieces of the rest of a source line, the scanner standing in a mode. -/
def scan : ScanMode → List Char → Option (List Token)
  | .gap, [] => some []
  | .comment, [] => some []
  | .word cs, [] => some [.word cs]
  | .quote, [] => none
  | .quoted _, [] => none
  | .text _, [] => none
  | .escape _, [] => none
  | .hexHigh _, [] => none
  | .hexLow _ _, [] => none
  | m, c :: cs =>
    match scanChar m c with
    | some (m', done) => (scan m' cs).map (done ++ ·)
    | none => none

/-- A number operand below a bound; one outside its field's range is an assembly error (30_encoding.md R91). -/
def numberBelow (bound : Nat) : Token → Option Nat
  | .word cs => (numberOf cs).bind fun n => if n < bound then some n else none
  | .symbol _ => none
  | .text _ => none
  | .comma => none

/-- The operand of `FSYM`: a number, or one printable character in quotes (30_encoding.md R91). -/
def symbolOperand : Token → Option Symbol
  | .symbol c => some (symbolOf c)
  | t => (numberBelow 256 t).map (BitVec.ofNat 8)

/-- The operand of `UBEGIN`: a number or the name of a scheme (30_encoding.md R91). -/
def schemeOperand (t : Token) : Option (BitVec 2) :=
  if t = .word ['T', '1', '2'] then some 0#2
  else if t = .word ['T', '1', '2', 'X', '5'] then some 1#2
  else if t = .word ['B', '8'] then some 2#2
  else (numberBelow 3 t).map (BitVec.ofNat 2)

/-- The operand of `RDSR`: a number or the name of a status register (30_encoding.md R91). -/
def registerOperand (t : Token) : Option (BitVec 2) :=
  if t = .word ['E', 'R', 'R', 'C', 'N', 'T'] then some 0#2
  else if t = .word ['F', 'S', 'T', 'A', 'T'] then some 1#2
  else if t = .word ['U', 'S', 'T', 'A', 'T'] then some 2#2
  else if t = .word ['E', 'S', 'T', 'A', 'T'] then some 3#2
  else (numberBelow 4 t).map (BitVec.ofNat 2)

/-- The operands of `UBYTES`: bytes. -/
def byteOperands : List Token → Option (List Byte)
  | [] => some []
  | t :: ts =>
    match numberBelow 256 t, byteOperands ts with
    | some b, some bs => some (BitVec.ofNat 8 b :: bs)
    | _, _ => none

/-- The literal of `.word`: a number of 16 bits written with `0x` (30_encoding.md R92). -/
def wordLiteral : Token → Option CommandWord
  | .word ('0' :: 'x' :: cs) => (numberBelow 65536 (.word ('0' :: 'x' :: cs))).map (BitVec.ofNat 16)
  | _ => none

/-- A mnemonic of a source line: a command's or a pseudo-instruction's (30_encoding.md R72, R92). -/
inductive SourceOp where
  | fsym
  | feol
  | ubegin
  | upush
  | ufail
  | ucnt
  | uget
  | urun
  | rdsr
  | fstr
  | fline
  | ubytes
  | uload
  | rawWord
  deriving DecidableEq, Repr

/-- The mnemonics, upper case (30_encoding.md R91). -/
def sourceOps : List (List Char × SourceOp) :=
  [(['F', 'S', 'Y', 'M'], .fsym), (['F', 'E', 'O', 'L'], .feol), (['U', 'B', 'E', 'G', 'I', 'N'], .ubegin),
   (['U', 'P', 'U', 'S', 'H'], .upush), (['U', 'F', 'A', 'I', 'L'], .ufail), (['U', 'C', 'N', 'T'], .ucnt),
   (['U', 'G', 'E', 'T'], .uget), (['U', 'R', 'U', 'N'], .urun), (['R', 'D', 'S', 'R'], .rdsr)] ++
  [(['F', 'S', 'T', 'R'], .fstr), (['F', 'L', 'I', 'N', 'E'], .fline), (['U', 'B', 'Y', 'T', 'E', 'S'], .ubytes),
   (['U', 'L', 'O', 'A', 'D'], .uload), (['.', 'w', 'o', 'r', 'd'], .rawWord)]

/-- The word of a command without operand, if the source line gives none. -/
def noOperand (i : Instr) : List Token → Option (List CommandWord)
  | [] => some [encode i]
  | _ :: _ => none

/-- The word of a command with one operand. -/
def oneOperand {α : Type} (read : Token → Option α) (mk : α → Instr) : List Token → Option (List CommandWord)
  | [t] => (read t).map fun a => [encode (mk a)]
  | _ => none

/-- `FSTR`: one `FSYM` per symbol of the text (30_encoding.md R92). -/
def fstr (cs : List Symbol) : List CommandWord := cs.map fun c => encode (.fsym c)

/-- `FLINE`: `FSTR`, then `FEOL` (30_encoding.md R92). -/
def fline (cs : List Symbol) : List CommandWord := fstr cs ++ [encode .feol]

/-- `UBYTES`: one `UPUSH` per byte (30_encoding.md R92). -/
def ubytes (bs : List Byte) : List CommandWord := bs.map fun b => encode (.upush b)

/-- `ULOAD`: `UBEGIN`, then `UBYTES`; the byte list may be empty (30_encoding.md R92). -/
def uload (m : BitVec 2) (bs : List Byte) : List CommandWord := encode (.ubegin m) :: ubytes bs

/-- The words of a source line with this mnemonic and these operands (30_encoding.md R91, R92). -/
def expand (op : SourceOp) (ts : List Token) : Option (List CommandWord) :=
  match op with
  | .fsym => oneOperand symbolOperand .fsym ts
  | .feol => noOperand .feol ts
  | .ubegin => oneOperand schemeOperand .ubegin ts
  | .upush => oneOperand (fun t => (numberBelow 256 t).map (BitVec.ofNat 8)) .upush ts
  | .ufail => noOperand .ufail ts
  | .ucnt => noOperand .ucnt ts
  | .uget => oneOperand (fun t => (numberBelow 4096 t).map (BitVec.ofNat 12)) .uget ts
  | .urun => noOperand .urun ts
  | .rdsr => oneOperand registerOperand .rdsr ts
  | .fstr =>
    match ts with
    | [.text cs] => some (fstr cs)
    | _ => none
  | .fline =>
    match ts with
    | [.text cs] => some (fline cs)
    | _ => none
  | .ubytes => if ts = [] then none else (byteOperands ts).map ubytes
  | .uload =>
    match ts with
    | m :: .comma :: bs =>
      match schemeOperand m, byteOperands bs with
      | some m', some bs' => some (uload m' bs')
      | _, _ => none
    | _ => none
  | .rawWord =>
    match ts with
    | [t] => (wordLiteral t).map fun w => [w]
    | _ => none

/-- The command words of one source line, or `none` for an assembly error (30_encoding.md R91, R92). -/
def assembleLine (line : List Char) : Option (List CommandWord) :=
  match scan .gap line with
  | some [] => some []
  | some (.word m :: ts) => (sourceOps.lookup m).bind fun op => expand op ts
  | _ => none

/-- The command words of a source text, line by line (30_encoding.md R91). -/
def assemble : List (List Char) → Option (List CommandWord)
  | [] => some []
  | l :: ls =>
    match assembleLine l, assemble ls with
    | some ws, some rest => some (ws ++ rest)
    | _, _ => none

end Sys2Proof.Machine
end

