-- ==== Sys2Proof/Machine/Line.lean ====
section
/-! DEFINITION. The function a whole line computes, as 40_framer.md R100 states it on the sequence of its symbols. The
commands do not use it: R115 says they agree with it. -/

namespace Sys2Proof.Machine

/-- The greatest index of a `*`, if there is one. -/
def lastStar : List Symbol → Option Nat
  | [] => none
  | c :: cs =>
    match lastStar cs with
    | some k => some (k + 1)
    | none => if c = symStar then some 0 else none

/-- The XOR of the symbols, 0 for none (40_framer.md R100, R113). -/
def xorAll (cs : List Symbol) : BitVec 8 := cs.foldl (· ^^^ ·) 0#8

/-- The cases 4 to 7 of 40_framer.md R100, with `d` the index of the first `$`, `payload` the symbols between it and the
last `*`, and `tail` the symbols after that `*`. -/
def frameTail (d : Nat) (payload tail : List Symbol) : LineResult :=
  match tail with
  | [] => .failed .shortSuffix
  | [_] => .failed .shortSuffix
  | h1 :: h0 :: rest =>
    if ¬(isHex h1 = true ∧ isHex h0 = true) then .failed .badHex
    else if ¬(∀ c ∈ rest, isEol c = true) then .failed .trailing
    else .framed (xorAll payload) (suffixValue h1 h0) (BitVec.ofNat 16 (d + 1)) (BitVec.ofNat 16 payload.length)

/-- `Frame(s)` (40_framer.md R100). -/
def frame (s : List Symbol) : LineResult :=
  if 65535 < s.length then .failed .overlong
  else
    match s.findIdx? (· == symDollar) with
    | none => .failed .noDollar
    | some d =>
      match lastStar (s.drop (d + 1)) with
      | none => .failed .noStar
      | some k => frameTail d ((s.drop (d + 1)).take k) ((s.drop (d + 1)).drop (k + 1))

/-- The upper-case hexadecimal digit of a value (40_framer.md R116). -/
def hexDigit (v : BitVec 4) : Symbol :=
  if v ≤ 9#4 then 0x30#8 + v.setWidth 8 else 0x41#8 + (v.setWidth 8 - 10#8)

end Sys2Proof.Machine
end

