-- ==== Sys2Proof/Machine/Run.lean ====
section
/-! DEFINITION. Running a sequence of commands, one at a time in order (30_encoding.md R71), the division of the
commands between the units (30_encoding.md R72), and the end of a run of a host program with what is then observed
(70_reset_and_hazards.md R238). -/

namespace Sys2Proof.Machine

/-- The commands executed one after the other, up to the first that does not answer a next state. -/
def execAll : List Instr → State → Host.Outcome State Fault Refusal
  | [], s => .next s
  | i :: is, s =>
    match exec i s with
    | .next t => execAll is t
    | .fault f => .fault f
    | .refused r => .refused r

/-- The commands of the framer unit (30_encoding.md R72). -/
def isFramer : Instr → Bool
  | .fsym _ => true
  | .feol => true
  | .ubegin _ => false
  | .upush _ => false
  | .ufail => false
  | .ucnt => false
  | .uget _ => false
  | .urun => false
  | .rdsr _ => false

/-- The commands of the unpacker unit (30_encoding.md R72). -/
def isUnpacker : Instr → Bool
  | .fsym _ => false
  | .feol => false
  | .ubegin _ => true
  | .upush _ => true
  | .ufail => true
  | .ucnt => true
  | .uget _ => true
  | .urun => true
  | .rdsr _ => false

/-- How many responses a command emits (30_encoding.md R93). -/
def responseCount (i : Instr) (s : State) : Nat :=
  match i with
  | .fsym _ => 0
  | .feol => 3
  | .ubegin m => if m = 3#2 then 1 else 0
  | .upush _ => 0
  | .ufail => 0
  | .ucnt => 1
  | .uget _ => 1
  | .urun => 1 + s.unp.N
  | .rdsr _ => 1

/-- The word the host takes in the step from this state, if it takes one (30_encoding.md R70). -/
def State.takenNext (s : State) : List ResponseWord :=
  match s.inbox with
  | .take :: _ => s.rsp.take 1
  | .command _ :: _ => []
  | .reset :: _ => []
  | [] => []

/-- What is observed of a run: the responses in the order the host took them, and the last state
(70_reset_and_hazards.md R238). The taken words are the host's knowledge, no state of the block
(93_implementation_defined.md U15). -/
structure Observation where
  responses : List ResponseWord
  final : State
  deriving DecidableEq, Repr

/-- What is observed of so many steps. -/
def observeSteps : Nat → State → Host.Outcome Observation Fault Refusal
  | 0, s => .next ⟨[], s⟩
  | k + 1, s =>
    match step s with
    | .next t =>
      match observeSteps k t with
      | .next o => .next ⟨s.takenNext ++ o.responses, o.final⟩
      | .fault f => .fault f
      | .refused r => .refused r
    | .fault f => .fault f
    | .refused r => .refused r

/-- What is observed when the host has done all it is going to do (70_reset_and_hazards.md R238; log entry 10). -/
def State.observe (s : State) : Host.Outcome Observation Fault Refusal := observeSteps s.inbox.length s

/-- The run has ended: the host has presented its last command, that command has executed, and every response has been
taken (70_reset_and_hazards.md R238; log entry 10). Neither that a line in progress was evaluated nor that `ill` is clear
is part of it. -/
def State.runEnded (s : State) : Prop := s.inbox = [] ∧ s.rsp = []

end Sys2Proof.Machine
end

