-- ==== Sys2Proof/Safety.lean ====
section
/-! DEFINITION. What claims about the block speak of: the launch premises (70_reset_and_hazards.md R234), the invariants
(10_state.md R24, R26, R29), the mark of a run gone wrong (93_implementation_defined.md U6), and agreement of states on
what a unit may read (10_state.md R31, 20_memory.md R58). -/

namespace Sys2Proof.Machine

/-- `line-start`: the per-line registers hold their line-start values (70_reset_and_hazards.md R234 (b)). -/
def State.lineStart (s : State) : Prop := s.line = .start

/-- `reset-done`: a reset has occurred and no command has been accepted since; `RB`, which a reset leaves unspecified, is
not named (70_reset_and_hazards.md R234 (a), 10_state.md R41). Read from the registers (log entry 10). -/
def State.resetDone (s : State) : Prop :=
  ∃ rb, s = { State.reset with unp := { Unpacker.reset with rb := rb }, inbox := s.inbox }

/-- `buffer-fresh`: the last unpacker command was `UBEGIN` of this scheme, as the registers show it: the buffer is empty, in
the scheme, and has value (70_reset_and_hazards.md R234 (c), 41_unpacker.md R140). Reset leaves such a buffer in `T12` too
(log entry 10). -/
def State.bufferFresh (m : Scheme) (s : State) : Prop :=
  s.unp.L = 0 ∧ s.unp.mode = m ∧ s.unp.bad = false ∧ s.unp.uovf = false

/-- The run has gone wrong: the host has sent a word that spells no command since the last reset (30_encoding.md R86,
93_implementation_defined.md U6; log entry 3). The block itself goes on. -/
def State.runFaulted (s : State) : Prop := s.ill = true

/-- The invariants (b) to (f) of 10_state.md R24; (a) holds by the type of `ph`, and of (e) only the half about `ovf = 1` is
about the state alone. -/
structure LineRegs.Inv (r : LineRegs) : Prop where
  seek : r.ph = .seek → r.acc = 0#8 ∧ r.snap = 0#8 ∧ r.tcnt = 0#2 ∧ r.tailOk = true
  dollar : r.ph ≠ .seek → r.dpos < r.pos
  star : r.ph = .tail → r.dpos < r.spos ∧ r.spos < r.pos
  overlong : r.ovf = true → r.pos = 65535#16
  body : r.ph = .body → r.tcnt = 0#2 ∧ r.tailOk = true

/-- A result an `FEOL` can report: the cause names a failure exactly when the status is `FRAMING`, the fields are then
zero, and otherwise the status says whether the values agree (30_encoding.md R79, R80; 40_framer.md R105). -/
def LineResult.legal (r : LineResult) : Prop :=
  match r.status with
  | .ok => r.cause = .none ∧ r.rx = r.computed
  | .checksum => r.cause = .none ∧ r.rx ≠ r.computed
  | .framing => r.cause ≠ .none ∧ r.computed = 0#8 ∧ r.rx = 0#8 ∧ r.start = 0#16 ∧ r.len = 0#16

/-- The kinds a response word can have (30_encoding.md R78). -/
def legalKinds : List (BitVec 4) := [0x1, 0x2, 0x3, 0x4, 0x5, 0x6, 0x8, 0xF]

/-- What holds in every state of the block: the invariants of the line (10_state.md R24), `flast` is 0 or a result an
`FEOL` can report (R26), the buffer keeps its canonical form (20_memory.md R50), no offender is recorded unless `ill` is set
(10_state.md R29), and every waiting word has a kind of 30_encoding.md R78. -/
structure State.Inv (s : State) : Prop where
  line : s.line.Inv
  flast : s.flast = 0#24 ∨ ∃ r : LineResult, r.legal ∧ s.flast = r.summary
  buffer : s.unp.rb.wf
  offender : s.ill = false → s.illcw = 0#16
  kinds : ∀ w ∈ s.rsp, w.extractLsb' 32 4 ∈ legalKinds

/-- The states agree on all the framer may read (10_state.md R31). -/
def State.sameFramer (s t : State) : Prop := s.line = t.line ∧ s.errcnt = t.errcnt ∧ s.flast = t.flast

/-- The buffers agree on all a rule may read: the registers, and the bytes below `L` (20_memory.md R57, R58). -/
def Unpacker.same (u v : Unpacker) : Prop :=
  u.L = v.L ∧ u.mode = v.mode ∧ u.bad = v.bad ∧ u.uovf = v.uovf ∧ ∀ a < u.L.val, u.rb.read a = v.rb.read a

/-- The states agree on all but the bytes of `RB` that no rule may read (20_memory.md R58). -/
def State.sameBelowL (s t : State) : Prop :=
  s.line = t.line ∧ s.errcnt = t.errcnt ∧ s.flast = t.flast ∧ s.unp.same t.unp ∧ s.ill = t.ill ∧ s.illcw = t.illcw ∧
    s.rsp = t.rsp ∧ s.inbox = t.inbox

/-- Nibble `n` of the buffer as a number: the low half of its byte if `n` is even, else the high half (20_memory.md
R54). -/
def nibbleNat (m : Memory) (n : Nat) : Nat := (m.read (n / 2)).toNat / 16 ^ (n % 2) % 16

/-- The code of sample `i` as a number (41_unpacker.md R158). -/
def codeNat (u : Unpacker) (i : Nat) : Nat :=
  if u.mode = .b8 then (u.rb.read i).toNat
  else nibbleNat u.rb (3 * i) + 16 * nibbleNat u.rb (3 * i + 1) + 256 * nibbleNat u.rb (3 * i + 2)

/-- The decibel value of a code in units of 1/64 dB as an integer (41_unpacker.md R160). -/
def dbInt (m : Scheme) (code : Nat) : Int := if m = .b8 then 48 * code - 12288 else 3 * code - 12288

/-- `D` as a number, from `L`, `mode`, `bad` and `uovf` (41_unpacker.md R150). -/
def bandCount (u : Unpacker) : Nat :=
  if u.bad = true ∨ u.uovf = true then 0
  else if u.mode = .t12 then 2 * u.L.val / 3
  else if u.mode = .t12x5 then 2 * u.L.val / 15
  else u.L.val

/-- `REM` as a number, from `L`, `mode`, `bad` and `uovf` (41_unpacker.md R150). -/
def unusedNibbles (u : Unpacker) : Nat :=
  if u.bad = true ∨ u.uovf = true then 0
  else if u.mode = .t12 then 2 * u.L.val % 3
  else if u.mode = .t12x5 then 2 * u.L.val % 15
  else 0

/-- `N = K * D` as a number (41_unpacker.md R150). -/
def sampleCount (u : Unpacker) : Nat := if u.mode = .t12x5 then 5 * bandCount u else bandCount u

/-- `w` is the `UHDR` of the buffer, field by field (30_encoding.md R82). -/
def isHeader (u : Unpacker) (w : ResponseWord) : Prop :=
  w.extractLsb' 32 4 = 0x4#4 ∧
  w.extractLsb' 31 1 = (if u.bad = true ∨ u.uovf = true then 0#1 else 1#1) ∧
  w.extractLsb' 30 1 = 0#1 ∧
  (w.extractLsb' 28 2).toNat = (if u.mode = .t12 then 0 else if u.mode = .t12x5 then 1 else 2) ∧
  w.extractLsb' 27 1 = 0#1 ∧
  (w.extractLsb' 24 3).toNat = (if u.mode = .t12x5 then 5 else 1) ∧
  w.extractLsb' 20 4 = 0#4 ∧
  (w.extractLsb' 16 4).toNat = unusedNibbles u ∧
  w.extractLsb' 13 3 = 0#3 ∧
  (w.extractLsb' 0 13).toNat = bandCount u

/-- `w` is the `USMP` of sample `i`, field by field (30_encoding.md R83). -/
def isSample (u : Unpacker) (i : Nat) (w : ResponseWord) : Prop :=
  w.extractLsb' 32 4 = 0x5#4 ∧
  w.extractLsb' 28 4 = 0#4 ∧
  (w.extractLsb' 16 12).toNat = codeNat u i ∧
  (w.extractLsb' 0 16).toInt = dbInt u.mode (codeNat u i)

/-- `w` is the `UNONE` for index `i` with this reason, field by field (30_encoding.md R84). -/
def isNoValue (reason : BitVec 2) (i : BitVec 12) (w : ResponseWord) : Prop :=
  w.extractLsb' 32 4 = 0x6#4 ∧
  w.extractLsb' 28 4 = 0#4 ∧
  w.extractLsb' 16 12 = i ∧
  w.extractLsb' 2 14 = 0#14 ∧
  w.extractLsb' 0 2 = reason

/-- The words of a stream whose kind is the framer's: `FRES`, `FPOS`, `FCNT` (30_encoding.md R78). -/
def framerWords (ws : List ResponseWord) : List ResponseWord :=
  ws.filter fun w => w.extractLsb' 32 4 ∈ [0x1#4, 0x2#4, 0x3#4]

/-- The words of a stream whose kind is the unpacker's: `UHDR`, `USMP`, `UNONE` (30_encoding.md R78). -/
def unpackerWords (ws : List ResponseWord) : List ResponseWord :=
  ws.filter fun w => w.extractLsb' 32 4 ∈ [0x4#4, 0x5#4, 0x6#4]

end Sys2Proof.Machine
end

