-- ==== Sys2Proof/Certificates/Slice0/Obligations.lean ====
section
/-! DEFINITION. The statements for the provers. Each docstring names the rule of the spec it formalises. -/

open Sys2Proof Sys2Proof.Machine

/-! ### Encoding -/

/-- 30_encoding.md R72, R73, R75: decoding the word of a well-formed command gives the command back, every operand at every
value of its field. -/
def Obligations.DecodeOfEncodeIsSame : Prop := ∀ i : Instr, i.wf = true → decode (encode i) = .ok i

/-- 30_encoding.md R72, R73: a word that decodes is the word of the command it decodes to, and that command is
well-formed: no two words spell one command. -/
def Obligations.EncodeOfDecodeIsSame : Prop :=
  ∀ (cw : CommandWord) (i : Instr), decode cw = .ok i → i.wf = true ∧ encode i = cw

/-- 30_encoding.md R73: a word spells a command iff it hits a row of the pattern table, with `cw[1:0] != 3` for `UBEGIN`;
the row is the command's, and the only one hit. -/
def Obligations.LegalWordsHitOneTableRow : Prop :=
  ∀ cw : CommandWord,
    ((∃ i, decode cw = .ok i) ↔
      ∃ row ∈ commandTable, row.hits cw = true ∧ (row.mnemonic = "UBEGIN" → cw.extractLsb' 0 2 ≠ 3#2)) ∧
    (∀ row₁ ∈ commandTable, ∀ row₂ ∈ commandTable, row₁.hits cw = true → row₂.hits cw = true → row₁ = row₂) ∧
    (∀ i, decode cw = .ok i → ∀ row ∈ commandTable, row.hits cw = true → row.mnemonic = i.mnemonic)

/-- 30_encoding.md R72, R73 with the words of 95_test_vectors.md V40: one word of each command decodes to it. -/
def Obligations.SpecWordsDecode : Prop :=
  decode 0x0024 = .ok (.fsym 0x24) ∧ decode 0x1000 = .ok .feol ∧ decode 0x4001 = .ok (.ubegin 1) ∧
  decode 0x50FF = .ok (.upush 0xFF) ∧ decode 0x6000 = .ok .ufail ∧ decode 0x7000 = .ok .ucnt ∧
  decode 0x8FFF = .ok (.uget 4095) ∧ decode 0x9000 = .ok .urun ∧ decode 0xC003 = .ok (.rdsr 3)

/-- 30_encoding.md R92: the words of `FLINE` decode to one `FSYM` per symbol and an `FEOL`, and those of `ULOAD` to a
`UBEGIN` and one `UPUSH` per byte. -/
def Obligations.PseudoInstructionsExpand : Prop :=
  (∀ cs : List Symbol, (fline cs).map decode = cs.map (fun c => .ok (.fsym c)) ++ [.ok .feol]) ∧
  (∀ (m : BitVec 2) (bs : List Byte), m ≠ 3#2 →
    (uload m bs).map decode = .ok (.ubegin m) :: bs.map fun b => .ok (.upush b))

/-- 30_encoding.md R91: a source line that is not a `.word` gives only words that spell a command. -/
def Obligations.OnlyRawWordsAssembleIllegal : Prop :=
  ∀ (op : SourceOp) (ts : List Token) (ws : List CommandWord), expand op ts = some ws → op ≠ .rawWord →
    ∀ w ∈ ws, ∃ i : Instr, decode w = .ok i ∧ i.wf = true

/-! ### The step -/

/-- 00_scope.md R9, 60_exceptions.md R206: from every state, whatever the host does next, the step answers a next state:
the block has no trap and no stuck state. -/
def Obligations.StepAlwaysGoesOn : Prop := ∀ s : State, ∃ t, step s = .next t

/-- 30_encoding.md R71: when the next event is a command word that spells `i`, the step executes `i` on the state, the
event consumed. -/
def Obligations.StepRunsDecodedCommand : Prop :=
  ∀ (s : State) (cw : CommandWord) (rest : List HostEvent) (i : Instr),
    s.inbox = .command cw :: rest → decode cw = .ok i → step s = exec i { s with inbox := rest }

/-- 30_encoding.md R86, R87: the words that spell no command are those of the cases (a) to (e); such a word, when accepted, is
recorded if it is the first, sets `ill`, emits `EILL` with the word, and changes nothing else. -/
def Obligations.IllegalCommandsAndTheirEffect : Prop :=
  (∀ cw : CommandWord,
    (∀ i, decode cw ≠ .ok i) ↔
      (cw.extractLsb' 12 4 ∈ [0x2#4, 0x3#4, 0xA#4, 0xB#4, 0xD#4, 0xE#4, 0xF#4]) ∨
      (cw.extractLsb' 12 4 ∈ [0x0#4, 0x5#4] ∧ cw.extractLsb' 8 4 ≠ 0#4) ∨
      (cw.extractLsb' 12 4 ∈ [0x1#4, 0x6#4, 0x7#4, 0x9#4] ∧ cw.extractLsb' 0 12 ≠ 0#12) ∨
      (cw.extractLsb' 12 4 = 0x4#4 ∧ (cw.extractLsb' 2 10 ≠ 0#10 ∨ cw.extractLsb' 0 2 = 3#2)) ∨
      (cw.extractLsb' 12 4 = 0xC#4 ∧ cw.extractLsb' 2 10 ≠ 0#10)) ∧
  (∀ (s : State) (cw : CommandWord) (rest : List HostEvent),
    s.inbox = .command cw :: rest → (∀ i, decode cw ≠ .ok i) →
      step s = .next { s with
        inbox := rest
        ill := true
        illcw := if s.ill = true then s.illcw else cw
        rsp := s.rsp ++ [0xF#4 ++ (0#16 ++ cw)] })

/-- 70_reset_and_hazards.md R230, 10_state.md R41: an edge with `rst = 1` gives the reset values from every state and empties
the response stream. That the rest of the inbox stays is the model's choice (log entry 2). -/
def Obligations.ResetEdgeEffect : Prop :=
  ∀ (s : State) (rest : List HostEvent), s.inbox = .reset :: rest →
    ∃ t, step s = .next t ∧ t.line = ⟨.seek, 0, 0, 0, 0, 0, 0, 0, 0, true, false⟩ ∧ t.errcnt = 0 ∧ t.flast = 0 ∧
      t.unp.L = 0 ∧ t.unp.mode = .t12 ∧ t.unp.bad = false ∧ t.unp.uovf = false ∧ t.ill = false ∧ t.illcw = 0 ∧
      t.rsp = [] ∧ t.inbox = rest

/-- 30_encoding.md R70, 60_exceptions.md R212: taking a response removes the oldest word, or nothing where none waits, and
changes nothing else; with no event the block idles. The inbox is the model's own (log entry 2). -/
def Obligations.TakeAndIdleEffect : Prop :=
  (∀ (s : State) (rest : List HostEvent) (w : ResponseWord) (ws : List ResponseWord),
    s.inbox = .take :: rest → s.rsp = w :: ws → step s = .next { s with inbox := rest, rsp := ws }) ∧
  (∀ (s : State) (rest : List HostEvent),
    s.inbox = .take :: rest → s.rsp = [] → step s = .next { s with inbox := rest }) ∧
  (∀ s : State, s.inbox = [] → step s = .next s)

/-- 10_state.md R41: after reset the framer is at line start, the counter is 0, the buffer is empty and valid in scheme
`T12`, nothing is recorded and no response waits. -/
def Obligations.ResetValues : Prop :=
  State.reset.lineStart ∧ State.reset.line = ⟨.seek, 0, 0, 0, 0, 0, 0, 0, 0, true, false⟩ ∧ State.reset.errcnt = 0 ∧
  State.reset.flast = 0 ∧ State.reset.unp.L = 0 ∧ State.reset.unp.mode = .t12 ∧ State.reset.unp.bad = false ∧
  State.reset.unp.uovf = false ∧ State.reset.ill = false ∧ State.reset.illcw = 0 ∧ State.reset.rsp = [] ∧
  (∀ r, State.reset.statusReg r = 0)

/-! ### The invariant -/

/-- 10_state.md R24, R26, R29: the invariant holds after reset. -/
def Obligations.InvariantHoldsAtReset : Prop := State.reset.Inv

/-- 10_state.md R24, R26, R29, 20_memory.md R50, 30_encoding.md R78: every step keeps the invariant, from every state that
has it. -/
def Obligations.StepKeepsInvariant : Prop := ∀ s t : State, s.Inv → step s = .next t → t.Inv

/-! ### The framer -/

/-- 10_state.md R22: the symbol classes, by their codes. -/
def Obligations.SymbolClasses : Prop :=
  ∀ c : Symbol,
    (isHex c = true ↔ (0x30 ≤ c.toNat ∧ c.toNat ≤ 0x39) ∨ (0x41 ≤ c.toNat ∧ c.toNat ≤ 0x46)) ∧
    (0x30 ≤ c.toNat → c.toNat ≤ 0x39 → (hexVal c).toNat = c.toNat - 0x30) ∧
    (0x41 ≤ c.toNat → c.toNat ≤ 0x46 → (hexVal c).toNat = c.toNat - 0x41 + 10) ∧
    (isEol c = true ↔ c.toNat = 0x0D ∨ c.toNat = 0x0A)

/-- 40_framer.md R101: what `FSYM` writes, case by case. Nothing else changes. -/
def Obligations.FsymPushesSymbol : Prop :=
  ∀ (c : Symbol) (s : State),
    (s.line.ovf = true → exec (.fsym c) s = .next s) ∧
    (s.line.ovf = false → s.line.pos = 65535#16 →
      exec (.fsym c) s = .next { s with line := { s.line with ovf := true } }) ∧
    (s.line.ovf = false → s.line.pos ≠ 65535#16 →
      (s.line.ph = .seek → c = 0x24#8 →
        exec (.fsym c) s = .next { s with line :=
          { s.line with pos := s.line.pos + 1#16, ph := .body, dpos := s.line.pos } }) ∧
      (s.line.ph = .seek → c ≠ 0x24#8 →
        exec (.fsym c) s = .next { s with line := { s.line with pos := s.line.pos + 1#16 } }) ∧
      (s.line.ph ≠ .seek → c = 0x2A#8 →
        exec (.fsym c) s = .next { s with line :=
          { s.line with
            pos := s.line.pos + 1#16, acc := s.line.acc ^^^ c, ph := .tail, spos := s.line.pos, snap := s.line.acc,
            tcnt := 0#2, tailOk := true } }) ∧
      (s.line.ph = .body → c ≠ 0x2A#8 →
        exec (.fsym c) s = .next { s with line :=
          { s.line with pos := s.line.pos + 1#16, acc := s.line.acc ^^^ c } }) ∧
      (s.line.ph = .tail → c ≠ 0x2A#8 → s.line.tcnt = 0#2 →
        exec (.fsym c) s = .next { s with line :=
          { s.line with pos := s.line.pos + 1#16, acc := s.line.acc ^^^ c, h1 := c, tcnt := 1#2 } }) ∧
      (s.line.ph = .tail → c ≠ 0x2A#8 → s.line.tcnt = 1#2 →
        exec (.fsym c) s = .next { s with line :=
          { s.line with pos := s.line.pos + 1#16, acc := s.line.acc ^^^ c, h0 := c, tcnt := 2#2 } }) ∧
      (s.line.ph = .tail → c ≠ 0x2A#8 → s.line.tcnt = 2#2 ∨ s.line.tcnt = 3#2 →
        exec (.fsym c) s = .next { s with line :=
          { s.line with
            pos := s.line.pos + 1#16, acc := s.line.acc ^^^ c, tcnt := 3#2
            tailOk := if c = 0x0D#8 ∨ c = 0x0A#8 then s.line.tailOk else false } }))

/-- 40_framer.md R103, R104, R105, R107: what `FEOL` reports, counts, records and clears, the first condition that holds
deciding. The words are laid out as 30_encoding.md R79 to R81 give them. -/
def Obligations.FeolEvaluatesLine : Prop :=
  ∀ s : State,
    let clear : LineRegs := ⟨.seek, 0, 0, 0, 0, 0, 0, 0, 0, true, false⟩
    let failed (cause : BitVec 3) : Prop :=
      exec .feol s = .next { s with
        line := clear
        flast := 0#16 ++ 0#3 ++ cause ++ 3#2
        rsp := s.rsp ++ [0x1#4 ++ (0#8 ++ (0#16 ++ 0#3 ++ cause ++ 3#2)), 0x200000000#36, 0x3#4 ++ s.errcnt] }
    let framed (status : BitVec 2) (rx : BitVec 8) (count : BitVec 32) : Prop :=
      exec .feol s = .next { s with
        line := clear
        errcnt := count
        flast := rx ++ s.line.snap ++ 0#3 ++ 0#3 ++ status
        rsp := s.rsp ++ [0x1#4 ++ (0#8 ++ (rx ++ s.line.snap ++ 0#3 ++ 0#3 ++ status)),
          0x2#4 ++ ((s.line.spos - s.line.dpos - 1#16) ++ (s.line.dpos + 1#16)), 0x3#4 ++ count] }
    (s.line.ovf = true → failed 6) ∧
    (s.line.ovf = false →
      (s.line.ph = .seek → failed 1) ∧
      (s.line.ph = .body → failed 2) ∧
      (s.line.ph = .tail → s.line.tcnt.toNat < 2 → failed 3) ∧
      (s.line.ph = .tail → 2 ≤ s.line.tcnt.toNat →
        (isHex s.line.h1 = false ∨ isHex s.line.h0 = false → failed 4) ∧
        (isHex s.line.h1 = true → isHex s.line.h0 = true →
          (s.line.tailOk = false → failed 5) ∧
          (s.line.tailOk = true →
            ∀ rx : BitVec 8, rx.toNat = 16 * (hexVal s.line.h1).toNat + (hexVal s.line.h0).toNat →
              (rx = s.line.snap → framed 1 rx s.errcnt) ∧
              (rx ≠ s.line.snap → s.errcnt ≠ 0xFFFFFFFF#32 → framed 2 rx (s.errcnt + 1#32)) ∧
              (rx ≠ s.line.snap → s.errcnt = 0xFFFFFFFF#32 → framed 2 rx 0xFFFFFFFF#32)))))

/-- 10_state.md R31, 40_framer.md R101, R103: a framer command leaves the unpacker, every byte of the buffer, the
illegal-command record and what the host will do as they were; `FSYM` also the counter, `flast` and the response stream,
to which `FEOL` only appends. -/
def Obligations.FramerCommandsFrame : Prop :=
  ∀ (i : Instr) (s t : State), isFramer i = true → exec i s = .next t →
    t.unp = s.unp ∧ (∀ a, t.unp.rb.read a = s.unp.rb.read a) ∧ t.ill = s.ill ∧ t.illcw = s.illcw ∧ t.inbox = s.inbox ∧
    s.rsp <+: t.rsp ∧ (i ≠ .feol → t.errcnt = s.errcnt ∧ t.flast = s.flast ∧ t.rsp = s.rsp)

/-- 40_framer.md R102: what the registers hold after the symbols `cs` have been pushed from the line-start state. For at
most 65535 of them, `d` is the index of the first `$`, `d + 1 + k` that of the last `*` after it. Of more, `ovf` is set and
the other registers describe the first 65535. -/
def Obligations.PushedSymbolsDetermineRegisters : Prop :=
  ∀ (cs : List Symbol) (s : State), s.lineStart →
    (cs.length ≤ 65535 →
      ∃ r : LineRegs, execAll (cs.map .fsym) s = .next { s with line := r } ∧
        r.pos.toNat = cs.length ∧ r.ovf = false ∧ (r.ph = .seek ↔ 0x24#8 ∉ cs) ∧
        ∀ d, cs.findIdx? (· == 0x24#8) = some d →
          r.dpos.toNat = d ∧ r.acc = xorAll (cs.drop (d + 1)) ∧ (r.ph = .tail ↔ 0x2A#8 ∈ cs.drop (d + 1)) ∧
          ∀ k, (cs.drop (d + 1))[k]? = some 0x2A#8 → 0x2A#8 ∉ cs.drop (d + 1 + k + 1) →
            r.spos.toNat = d + 1 + k ∧ r.snap = xorAll ((cs.drop (d + 1)).take k) ∧
            r.tcnt.toNat = min (cs.length - 1 - (d + 1 + k)) 3 ∧
            (∀ c, cs[d + 1 + k + 1]? = some c → r.h1 = c) ∧ (∀ c, cs[d + 1 + k + 2]? = some c → r.h0 = c) ∧
            (r.tailOk = true ↔ ∀ c ∈ cs.drop (d + 1 + k + 3), c = 0x0D#8 ∨ c = 0x0A#8)) ∧
    (65535 < cs.length →
      ∃ r : LineRegs, execAll ((cs.take 65535).map .fsym) s = .next { s with line := r } ∧
        execAll (cs.map .fsym) s = .next { s with line := { r with ovf := true } })

/-- 40_framer.md R115: from the line-start state, after the symbols `cs` with any commands of the unpacker and `RDSR` among
them, `FEOL` reports `Frame(cs)`, counts a checksum failure, and records the result. -/
def Obligations.FeolReportsFrameOfLine : Prop :=
  ∀ (cs : List Symbol) (prog : List Instr) (s : State), s.lineStart →
    (∀ i ∈ prog, i.wf = true) → prog.filter isFramer = cs.map .fsym →
    ∃ t u : State, execAll prog s = .next t ∧ exec .feol t = .next u ∧
      u.rsp = t.rsp ++ [(Response.fres (frame cs)).word, (Response.fpos (frame cs).start (frame cs).len).word,
        (Response.fcnt u.errcnt).word] ∧
      u.errcnt = (if (frame cs).status = .checksum ∧ s.errcnt ≠ 0xFFFFFFFF#32 then s.errcnt + 1#32 else s.errcnt) ∧
      u.flast = (frame cs).summary ∧ u.lineStart

/-- 40_framer.md R116, R113: for every payload of at most 65531 symbols, the empty one included, the line with its own
checksum, with or without CR and LF symbols after it, is valid, and the payload is where it was written. -/
def Obligations.ChecksumRoundTrip : Prop :=
  ∀ (payload eols : List Symbol), (∀ c ∈ eols, c = 0x0D#8 ∨ c = 0x0A#8) → payload.length + eols.length ≤ 65531 →
    frame (0x24#8 :: payload ++ [0x2A#8, hexDigit ((xorAll payload).extractLsb' 4 4),
        hexDigit ((xorAll payload).extractLsb' 0 4)] ++ eols) =
      ⟨.ok, .none, xorAll payload, xorAll payload, 1#16, BitVec.ofNat 16 payload.length⟩

/-- 40_framer.md R117, R108: flipping one bit of one payload symbol, or of one of the two suffix symbols, of a valid line
gives a line that is not valid. -/
def Obligations.SingleBitFlipIsCaught : Prop :=
  ∀ (cs : List Symbol) (j b : Nat) (c : Symbol), (frame cs).status = .ok → b < 8 → cs[j]? = some c →
    ((frame cs).start.toNat ≤ j ∧ j < (frame cs).start.toNat + (frame cs).len.toNat ∨
      j = (frame cs).start.toNat + (frame cs).len.toNat + 1 ∨ j = (frame cs).start.toNat + (frame cs).len.toNat + 2) →
    (frame (cs.set j (c ^^^ (1#8 <<< b)))).status ≠ .ok

/-- 40_framer.md R118, R104: from every state, also in the middle of a line, once an `FEOL` has ended the line a valid
line is reported `OK` with its payload's place. -/
def Obligations.ValidLineAfterAnyLineIsOk : Prop :=
  ∀ (cs : List Symbol) (s : State), (frame cs).status = .ok →
    ∃ t u : State, exec .feol s = .next t ∧ execAll (cs.map .fsym ++ [.feol]) t = .next u ∧
      u.errcnt = t.errcnt ∧ u.lineStart ∧
      u.rsp = t.rsp ++ [(Response.fres (frame cs)).word, (Response.fpos (frame cs).start (frame cs).len).word,
        (Response.fcnt t.errcnt).word]

/-- 40_framer.md R114: the phase moves only from `SEEK` to `BODY` on a `$`, from `BODY` to `TAIL` on a `*`, and to `SEEK` on
`FEOL`. -/
def Obligations.PhaseTransitions : Prop :=
  ∀ (i : Instr) (s t : State), exec i s = .next t → t.line.ph ≠ s.line.ph →
    (s.line.ph = .seek ∧ t.line.ph = .body ∧ i = .fsym 0x24#8) ∨
    (s.line.ph = .body ∧ t.line.ph = .tail ∧ i = .fsym 0x2A#8) ∨
    (t.line.ph = .seek ∧ i = .feol)

/-- 10_state.md R25, 40_framer.md R107: whatever the host does but a reset, the counter never decreases, and it changes only
in an `FEOL` of a line whose checksum fails, by 1. -/
def Obligations.ErrcntIsMonotone : Prop :=
  ∀ s t : State, step s = .next t → s.inbox.head? ≠ some .reset →
    s.errcnt.toNat ≤ t.errcnt.toNat ∧
    (t.errcnt ≠ s.errcnt →
      s.inbox.head? = some (.command 0x1000#16) ∧ s.line.result.status = .checksum ∧
        t.errcnt.toNat = s.errcnt.toNat + 1)

/-! ### The unpacker -/

/-- 41_unpacker.md R140, 20_memory.md R51: `UBEGIN` of a scheme empties the buffer, chooses the scheme and clears the
flags; no byte of the buffer changes, nor anything else. `UBEGIN 3` is no command: its term has the effect of the illegal
word 0x4003 (30_encoding.md R86), an inference of the model (log entry 5). -/
def Obligations.UbeginStartsBuffer : Prop :=
  ∀ s : State,
    exec (.ubegin 0) s = .next { s with unp := ⟨s.unp.rb, 0, .t12, false, false⟩ } ∧
    exec (.ubegin 1) s = .next { s with unp := ⟨s.unp.rb, 0, .t12x5, false, false⟩ } ∧
    exec (.ubegin 2) s = .next { s with unp := ⟨s.unp.rb, 0, .b8, false, false⟩ } ∧
    exec (.ubegin 3) s = .next { s with
      ill := true
      illcw := if s.ill = true then s.illcw else 0x4003
      rsp := s.rsp ++ [0xF00004003#36] }

/-- 41_unpacker.md R142: `UPUSH` stores the byte at address `L` and counts it; every other byte reads as before; a full
buffer drops the byte and sets `uovf`. Nothing else changes. The premise on the buffer is part of the invariant. -/
def Obligations.UpushAppendsByte : Prop :=
  ∀ (b : Byte) (s : State),
    (s.unp.L.val < 4096 → ∃ rb : Memory, ∃ h : s.unp.L.val + 1 < 4097,
      exec (.upush b) s = .next { s with unp := { s.unp with rb := rb, L := ⟨s.unp.L.val + 1, h⟩ } } ∧
      (s.unp.rb.wf → rb.read s.unp.L.val = b ∧ rb.wf) ∧ (∀ a, a ≠ s.unp.L.val → rb.read a = s.unp.rb.read a)) ∧
    (s.unp.L.val = 4096 → exec (.upush b) s = .next { s with unp := { s.unp with uovf := true } })

/-- 41_unpacker.md R144: `UFAIL` sets `bad` and nothing else; `UCNT` then reports a buffer without value. -/
def Obligations.UfailMarksPayload : Prop :=
  ∀ s : State, ∃ t u : State, exec .ufail s = .next t ∧ t = { s with unp := { s.unp with bad := true } } ∧
    exec .ucnt t = .next u ∧ ∃ w, u.rsp = s.rsp ++ [w] ∧ w.extractLsb' 31 1 = 0#1 ∧ w.extractLsb' 0 13 = 0#13

/-- 41_unpacker.md R151, R150, 30_encoding.md R82: `UCNT` emits the header of the buffer as it stands, and writes no
state. -/
def Obligations.UcntReportsHeader : Prop :=
  ∀ s : State, ∃ w : ResponseWord, exec .ucnt s = .next { s with rsp := s.rsp ++ [w] } ∧ isHeader s.unp w

/-- 41_unpacker.md R153, 30_encoding.md R83, R84: `UGET i` emits one response: `UNONE INVALID` for a buffer without value,
checked first, `UNONE RANGE` for an index not below `N`, else the sample. It writes no state. -/
def Obligations.UgetAnswersOneSample : Prop :=
  ∀ (i : BitVec 12) (s : State), ∃ w : ResponseWord, exec (.uget i) s = .next { s with rsp := s.rsp ++ [w] } ∧
    (s.unp.bad = true ∨ s.unp.uovf = true → isNoValue 1 i w) ∧
    (s.unp.bad = false → s.unp.uovf = false → sampleCount s.unp ≤ i.toNat → isNoValue 2 i w) ∧
    (s.unp.bad = false → s.unp.uovf = false → i.toNat < sampleCount s.unp → isSample s.unp i.toNat w)

/-- 41_unpacker.md R155: `URUN` emits the header, then the `N` samples in index order, and writes no state. -/
def Obligations.UrunDecodesBuffer : Prop :=
  ∀ s : State, ∃ (hdr : ResponseWord) (ws : List ResponseWord),
    exec .urun s = .next { s with rsp := s.rsp ++ hdr :: ws } ∧ isHeader s.unp hdr ∧ ws.length = sampleCount s.unp ∧
    ∀ (i : Nat) (w : ResponseWord), ws[i]? = some w → isSample s.unp i w

/-- 41_unpacker.md R155, R153: the responses of `URUN` are that of `UCNT` and then those of `UGET 0`, `UGET 1` and so on, up
to the last sample. -/
def Obligations.UrunIsUcntThenUgets : Prop :=
  ∀ s t : State, exec .urun s = .next t →
    execAll (.ucnt :: (List.range (sampleCount s.unp)).map fun i => .uget (BitVec.ofNat 12 i)) s = .next t

/-- 41_unpacker.md R163: in scheme `T12X5` the `k`-th value of band `d` is the sample at place `5 d + k` after the header. -/
def Obligations.PercentileGroupsAreFlat : Prop :=
  ∀ (s t : State) (d k : Nat), s.unp.mode = .t12x5 → exec .urun s = .next t → d < bandCount s.unp → k < 5 →
    ∃ w, t.rsp[s.rsp.length + 1 + 5 * d + k]? = some w ∧ isSample s.unp (5 * d + k) w ∧
      t.rsp.length = s.rsp.length + 1 + 5 * bandCount s.unp

/-- 20_memory.md R54, R55: a 12-bit code as bytes: an even sample is a byte and the low half of the next, an odd one the
high half of a byte and the next. -/
def Obligations.SampleCodeInBytes : Prop :=
  ∀ (m : Memory) (j : Nat),
    m.code12 (2 * j) = (m.read (3 * j + 1)).extractLsb' 0 4 ++ m.read (3 * j) ∧
    m.code12 (2 * j + 1) = m.read (3 * j + 2) ++ (m.read (3 * j + 1)).extractLsb' 4 4

/-- 20_memory.md R57, 41_unpacker.md R170: of a sample of the buffer, every nibble, or byte, lies below `L`, and its code
depends on the bytes that hold it and on no other; so two buffers that agree below `L` have the same samples. -/
def Obligations.SampleReadsStayBelowL : Prop :=
  ∀ (u v : Unpacker) (i : Nat), i < u.N → v.mode = u.mode →
    (u.mode ≠ .b8 →
      3 * i + 2 ≤ 3 * u.N - 1 ∧ 3 * u.N - 1 ≤ 2 * u.L.val - 1 ∧ (3 * i + 2) / 2 < u.L.val ∧
      ((∀ a, 3 * i / 2 ≤ a → a ≤ (3 * i + 2) / 2 → u.rb.read a = v.rb.read a) → u.code i = v.code i)) ∧
    (u.mode = .b8 → i < u.L.val ∧ (u.rb.read i = v.rb.read i → u.code i = v.code i)) ∧
    ((∀ a < u.L.val, u.rb.read a = v.rb.read a) → u.sample i = v.sample i)

/-- 41_unpacker.md R150: in the 12-bit schemes of a buffer with value, the samples and the unused nibbles are all the
nibbles, and no further band would fit; the widths of the fields suffice; something is left exactly when `L` is no multiple
of 3, or 15. -/
def Obligations.BandCountIsLargest : Prop :=
  ∀ u : Unpacker,
    u.K ≤ 5 ∧ u.D ≤ 4096 ∧ u.N ≤ 4096 ∧ u.REM ≤ 14 ∧
    (u.valid = true → u.mode ≠ .b8 → 3 * u.K * u.D + u.REM = 2 * u.L.val ∧ u.REM < 3 * u.K) ∧
    (u.valid = true → u.mode = .t12 → (u.REM ≠ 0 ↔ ¬ 3 ∣ u.L.val)) ∧
    (u.valid = true → u.mode = .t12x5 → (u.REM ≠ 0 ↔ ¬ 15 ∣ u.L.val)) ∧
    (u.valid = true → u.mode = .b8 → u.D = u.L.val ∧ u.REM = 0) ∧
    (u.valid = false → u.D = 0 ∧ u.REM = 0)

/-- 41_unpacker.md R140, R142: after `UBEGIN m` and one `UPUSH` for each of at most 4096 bytes, the buffer holds these bytes
in order, in the scheme, and has value. -/
def Obligations.LoadedBufferHoldsBytes : Prop :=
  ∀ (sch : Scheme) (bs : List Byte) (s : State), s.unp.rb.wf → bs.length ≤ 4096 →
    ∃ u : Unpacker, execAll (.ubegin sch.bits :: bs.map .upush) s = .next { s with unp := u } ∧
      u.L.val = bs.length ∧ u.mode = sch ∧ u.bad = false ∧ u.uovf = false ∧ u.rb.wf ∧
      ∀ (n : Nat) (b : Byte), bs[n]? = some b → u.rb.read n = b

/-- 41_unpacker.md R168, R142: after more than 4096 `UPUSH` since a `UBEGIN` the buffer holds 4096 bytes, the first ones, and
is without value. -/
def Obligations.OverflowedBufferHasNoValue : Prop :=
  ∀ (sch : Scheme) (bs : List Byte) (s : State), s.unp.rb.wf → 4096 < bs.length →
    ∃ u : Unpacker, execAll (.ubegin sch.bits :: bs.map .upush) s = .next { s with unp := u } ∧
      u.L.val = 4096 ∧ u.uovf = true ∧ u.valid = false ∧ u.D = 0 ∧ u.N = 0 ∧
      ∀ (n : Nat) (b : Byte), n < 4096 → bs[n]? = some b → u.rb.read n = b

/-- 10_state.md R27, R30, 41_unpacker.md R168: a buffer without value stays so until a `UBEGIN`, whatever commands come, and
`UGET` answers `UNONE INVALID`. -/
def Obligations.PoisonLastsUntilUbegin : Prop :=
  ∀ (prog : List Instr) (s t : State), (∀ i ∈ prog, ∀ m, i ≠ .ubegin m) → s.unp.valid = false →
    execAll prog s = .next t →
      t.unp.valid = false ∧ ∀ i : BitVec 12, ∃ w, exec (.uget i) t = .next { t with rsp := t.rsp ++ [w] } ∧ isNoValue 1 i w

/-- 41_unpacker.md R160, R162: every `USMP` of a `URUN` carries the decibel value of its own code, at least -192 dB and
always negative, at most -0.75 dB in scheme `B8`; no result wraps. -/
def Obligations.DecibelValuesAreInRange : Prop :=
  ∀ (s t : State) (w : ResponseWord), exec .urun s = .next t → w ∈ t.rsp.drop (s.rsp.length + 1) →
    (w.extractLsb' 0 16).toInt = dbInt s.unp.mode (w.extractLsb' 16 12).toNat ∧
    -12288 ≤ (w.extractLsb' 0 16).toInt ∧ (w.extractLsb' 0 16).toInt ≤ -3 ∧ w.extractLsb' 15 1 = 1#1 ∧
    (s.unp.mode = .b8 → (w.extractLsb' 16 12).toNat ≤ 255 ∧ (w.extractLsb' 0 16).toInt ≤ -48)

/-- 41_unpacker.md R161, R160: the decibel value over 64 is the document's expression, exactly. -/
def Obligations.DecibelValuesAreExact : Prop :=
  ∀ code : BitVec 12,
    ((Scheme.t12.db code).toInt : ℚ) / 64 = code.toNat * 0.046875 + (0 - 4096 * 0.046875) ∧
    ((Scheme.t12x5.db code).toInt : ℚ) / 64 = code.toNat * 0.046875 + (0 - 4096 * 0.046875) ∧
    (code.toNat < 256 → ((Scheme.b8.db code).toInt : ℚ) / 64 = code.toNat * 0.75 + (0 - 256 * 0.75))

/-- 41_unpacker.md R165: a decibel value in the range of the 12-bit map is within half a step of the value of its nearest
code. -/
def Obligations.QuantizationRoundTrip : Prop :=
  ∀ (v : ℝ) (code : BitVec 12), -192 ≤ v → v ≤ -0.046875 →
    (∀ other : BitVec 12, |(code.toNat : ℝ) - (v + 192) / 0.046875| ≤ |(other.toNat : ℝ) - (v + 192) / 0.046875|) →
    |((Scheme.t12.db code).toInt : ℝ) / 64 - v| ≤ 0.0234375

/-- 10_state.md R27: which commands write which register of the unpacker, and what a push or a mark can do to it. -/
def Obligations.UnpackerRegisterWriters : Prop :=
  ∀ (i : Instr) (s t : State), exec i s = .next t →
    (t.unp.mode ≠ s.unp.mode → ∃ m, i = .ubegin m) ∧
    (t.unp.L ≠ s.unp.L → (∃ m, i = .ubegin m ∧ t.unp.L = 0) ∨ ∃ b, i = .upush b ∧ t.unp.L.val = s.unp.L.val + 1) ∧
    (t.unp.bad ≠ s.unp.bad → (∃ m, i = .ubegin m ∧ t.unp.bad = false) ∨ i = .ufail ∧ t.unp.bad = true) ∧
    (t.unp.uovf ≠ s.unp.uovf →
      (∃ m, i = .ubegin m ∧ t.unp.uovf = false) ∨ ∃ b, i = .upush b ∧ s.unp.L.val = 4096 ∧ t.unp.uovf = true) ∧
    (t.unp.rb ≠ s.unp.rb → ∃ b, i = .upush b ∧ s.unp.L.val < 4096)

/-- 10_state.md R31: a command of the unpacker leaves the framer, the counter, `flast`, the illegal-command record and what
the host will do as they were, and only appends to the response stream; a query also leaves the unpacker as it was. -/
def Obligations.UnpackerCommandsFrame : Prop :=
  ∀ (i : Instr) (s t : State), isUnpacker i = true → i.wf = true → exec i s = .next t →
    t.line = s.line ∧ t.errcnt = s.errcnt ∧ t.flast = s.flast ∧ t.ill = s.ill ∧ t.illcw = s.illcw ∧ t.inbox = s.inbox ∧
    s.rsp <+: t.rsp ∧
    (i = .ucnt ∨ i = .urun ∨ (∃ k, i = .uget k) → t.unp = s.unp) ∧
    (∀ a, (∀ b, i = .upush b → s.unp.L.val < 4096 → a ≠ s.unp.L.val) → t.unp.rb.read a = s.unp.rb.read a)

/-! ### The system command and the whole block -/

/-- 42_system.md R190, 10_state.md R33, 30_encoding.md R85: `RDSR r` emits the status register, field by field, and writes
nothing: reading clears no bit. -/
def Obligations.RdsrReadsStatusRegister : Prop :=
  ∀ (r : BitVec 2) (s : State), ∃ w : ResponseWord, exec (.rdsr r) s = .next { s with rsp := s.rsp ++ [w] } ∧
    w.extractLsb' 32 4 = 0x8#4 ∧
    (r = 0 → w.extractLsb' 0 32 = s.errcnt) ∧
    (r = 1 → w.extractLsb' 0 24 = s.flast ∧ w.extractLsb' 24 8 = 0#8) ∧
    (r = 2 → (w.extractLsb' 0 13).toNat = s.unp.L.val ∧ w.extractLsb' 13 3 = 0#3 ∧
      (w.extractLsb' 16 2).toNat = (if s.unp.mode = .t12 then 0 else if s.unp.mode = .t12x5 then 1 else 2) ∧
      w.extractLsb' 18 2 = 0#2 ∧ w.getLsbD 20 = s.unp.bad ∧ w.getLsbD 21 = s.unp.uovf ∧ w.extractLsb' 22 10 = 0#10) ∧
    (r = 3 → w.getLsbD 0 = s.ill ∧ w.extractLsb' 1 15 = 0#15 ∧ w.extractLsb' 16 16 = s.illcw)

/-- 10_state.md R34: the per-line registers show in no response but those of `FEOL`: with other contents of them, every other
command emits the same words. -/
def Obligations.LineRegistersAreHidden : Prop :=
  ∀ (i : Instr) (s t : State) (l : LineRegs), i ≠ .feol → exec i s = .next t →
    ∃ u, exec i { s with line := l } = .next u ∧ u.rsp = t.rsp ∧ u.unp = t.unp ∧ u.errcnt = t.errcnt ∧
      u.flast = t.flast ∧ u.ill = t.ill ∧ u.illcw = t.illcw

/-- 30_encoding.md R93, 20_memory.md R65: a command appends to the response stream as many words as the table says, and
changes no word emitted before. -/
def Obligations.ResponseCounts : Prop :=
  ∀ (i : Instr) (s t : State), i.wf = true → exec i s = .next t →
    ∃ ws, t.rsp = s.rsp ++ ws ∧
      ws.length = match i with
        | .fsym _ => 0
        | .feol => 3
        | .ubegin _ => 0
        | .upush _ => 0
        | .ufail => 0
        | .ucnt => 1
        | .uget _ => 1
        | .urun => 1 + sampleCount s.unp
        | .rdsr _ => 1

/-- 20_memory.md R53, 70_reset_and_hazards.md R237: a query asked twice in a row gives the same words twice. -/
def Obligations.QueriesAreIdempotent : Prop :=
  ∀ (i : Instr) (s t u : State), i = .ucnt ∨ i = .urun ∨ (∃ k, i = .uget k) ∨ (∃ r, i = .rdsr r) →
    exec i s = .next t → exec i t = .next u →
    ∃ ws, ws ≠ [] ∧ t = { s with rsp := s.rsp ++ ws } ∧ u = { s with rsp := s.rsp ++ ws ++ ws }

/-- 10_state.md R29, 60_exceptions.md R208: until a reset, `ill` stays set and the first offender stays recorded; it is set
only by a word that spells no command, which is then the one recorded. -/
def Obligations.FirstOffenderIsKept : Prop :=
  ∀ s t : State, step s = .next t → s.inbox.head? ≠ some .reset →
    (s.ill = true → t.ill = true ∧ t.illcw = s.illcw) ∧
    (s.ill = false → t.ill = true →
      ∃ cw, s.inbox.head? = some (.command cw) ∧ (∀ i, decode cw ≠ .ok i) ∧ t.illcw = cw) ∧
    (s.ill = false → t.ill = false → t.illcw = s.illcw)

/-- 10_state.md R31: of a sequence of commands, the framer's registers and words depend only on the framer's commands, the
unpacker's only on the unpacker's. -/
def Obligations.UnitsAreIndependent : Prop :=
  ∀ (prog : List Instr) (s t : State), (∀ i ∈ prog, i.wf = true) → execAll prog s = .next t →
    ∃ f u : State, execAll (prog.filter isFramer) s = .next f ∧ execAll (prog.filter isUnpacker) s = .next u ∧
      t.sameFramer f ∧ framerWords t.rsp = framerWords f.rsp ∧
      t.unp = u.unp ∧ unpackerWords t.rsp = unpackerWords u.rsp

/-- 20_memory.md R58, R57: over any number of steps, two states that agree on all but the bytes of the buffer at `L` and
above stay so, and emit the same responses: what an unwritten byte reads as shows nowhere (log entry 1). -/
def Obligations.UnwrittenBytesAreUnobservable : Prop :=
  ∀ (k : Nat) (s s' t : State), s.unp.rb.wf → s'.unp.rb.wf → s.sameBelowL s' → core.run k s = .next t →
    ∃ t', core.run k s' = .next t' ∧ t.sameBelowL t'

/-! ### Launch premises and the end of a run -/

/-- 70_reset_and_hazards.md R234, 10_state.md R31: a reset establishes `reset-done`, which gives `line-start` and a fresh
buffer in scheme `T12`; `FEOL` establishes `line-start` and `UBEGIN` of a scheme `buffer-fresh`; the commands of the other
unit, `RDSR` and an illegal word keep each. That `reset-done` and `buffer-fresh` are read from the registers, so that
`reset-done` gives `bufferFresh .t12` though no `UBEGIN` was accepted, is the model's inference (log entry 10), and so is that
`ill` is the mark of a faulted run, clear when `reset-done` holds (log entry 3); R234 says neither. -/
def Obligations.LaunchPremises : Prop :=
  State.reset.resetDone ∧
  (∀ (s t : State) (rest : List HostEvent), s.inbox = .reset :: rest → step s = .next t → t.resetDone) ∧
  (∀ s : State, s.resetDone → s.lineStart ∧ s.bufferFresh .t12 ∧ s.errcnt = 0 ∧ ¬ s.runFaulted) ∧
  (∀ s t : State, exec .feol s = .next t → t.lineStart) ∧
  (∀ (s t : State) (m : Scheme), exec (.ubegin m.bits) s = .next t → t.bufferFresh m) ∧
  (∀ (i : Instr) (s t : State), exec i s = .next t → i.wf = true →
    (isFramer i = false → s.lineStart → t.lineStart) ∧
    (isUnpacker i = false → ∀ m, s.bufferFresh m → t.bufferFresh m)) ∧
  (∀ (cw : CommandWord) (s t : State), (∀ i, decode cw ≠ .ok i) → accept cw s = .next t →
    (s.lineStart → t.lineStart) ∧ ∀ m, s.bufferFresh m → t.bufferFresh m)

/-- 70_reset_and_hazards.md R238, 20_memory.md R65, 70_reset_and_hazards.md R241, R243: without a reset, whenever the host takes
its responses, those it took and then those that still wait are the ones the same commands emit with none taken, in order;
so at the end of the run the observation is all the responses, and the rest of the last state does not depend on the taking.
What a run is here is log entries 2 and 10. -/
def Obligations.ObservationIsAllResponses : Prop :=
  ∀ s : State, .reset ∉ s.inbox →
    ∃ (o : Observation) (u : State),
      s.observe = .next o ∧
      State.observe { s with inbox := s.inbox.filter (· ≠ .take) } = .next ⟨[], u⟩ ∧
      o.responses ++ o.final.rsp = u.rsp ∧ o.final = { u with rsp := o.final.rsp } ∧ o.final.inbox = [] ∧
      (o.final.runEnded → o.responses = u.rsp)

/-- 70_reset_and_hazards.md R238, R243: whatever the host does, the run ends once it takes the responses that wait, and no
fewer takes end it; at its end the block idles with all state held. What the end of a run is here is log entry 10. -/
def Obligations.TakingTheResponsesEndsTheRun : Prop :=
  ∀ s : State, ∃ o : Observation, s.observe = .next o ∧
    (∀ n : Nat, ∃ e : Observation, State.observe { s with inbox := s.inbox ++ List.replicate n .take } = .next e ∧
      e.responses = o.responses ++ o.final.rsp.take n ∧ (e.final.runEnded ↔ o.final.rsp.length ≤ n) ∧
      (e.final.runEnded → e.final = { o.final with rsp := [] } ∧ step e.final = .next e.final))
end

