-- ==== Sys2Proof/Laws/State.lean ====
section
/-! SUPPORT. One lemma per field per update of the state: what each shared operation leaves in each field. -/

namespace Sys2Proof.Config

@[simp] theorem posMax_eq : posMax = 65535#16 := rfl
@[simp] theorem errcntMax_eq : errcntMax = 0xFFFFFFFF#32 := rfl
@[simp] theorem rbBytes_eq : rbBytes = 4096 := rfl
@[simp] theorem percentiles_eq : percentiles = 5 := rfl

end Sys2Proof.Config

namespace Sys2Proof.Machine

section emit

variable (s : State) (rs : List Response)

@[simp] theorem State.emit_line : (s.emit rs).line = s.line := rfl
@[simp] theorem State.emit_errcnt : (s.emit rs).errcnt = s.errcnt := rfl
@[simp] theorem State.emit_flast : (s.emit rs).flast = s.flast := rfl
@[simp] theorem State.emit_unp : (s.emit rs).unp = s.unp := rfl
@[simp] theorem State.emit_ill : (s.emit rs).ill = s.ill := rfl
@[simp] theorem State.emit_illcw : (s.emit rs).illcw = s.illcw := rfl
@[simp] theorem State.emit_rsp : (s.emit rs).rsp = s.rsp ++ rs.map Response.word := rfl
@[simp] theorem State.emit_inbox : (s.emit rs).inbox = s.inbox := rfl

end emit

section illegalCommand

variable (s : State) (cw : CommandWord)

@[simp] theorem State.illegalCommand_line : (s.illegalCommand cw).line = s.line := rfl
@[simp] theorem State.illegalCommand_errcnt : (s.illegalCommand cw).errcnt = s.errcnt := rfl
@[simp] theorem State.illegalCommand_flast : (s.illegalCommand cw).flast = s.flast := rfl
@[simp] theorem State.illegalCommand_unp : (s.illegalCommand cw).unp = s.unp := rfl
@[simp] theorem State.illegalCommand_ill : (s.illegalCommand cw).ill = true := rfl
@[simp] theorem State.illegalCommand_illcw :
    (s.illegalCommand cw).illcw = if s.ill then s.illcw else cw := rfl
@[simp] theorem State.illegalCommand_rsp :
    (s.illegalCommand cw).rsp = s.rsp ++ [(Response.eill cw).word] := rfl
@[simp] theorem State.illegalCommand_inbox : (s.illegalCommand cw).inbox = s.inbox := rfl

end illegalCommand

section resetEdge

variable (s : State)

@[simp] theorem State.resetEdge_line : s.resetEdge.line = .start := rfl
@[simp] theorem State.resetEdge_errcnt : s.resetEdge.errcnt = 0#32 := rfl
@[simp] theorem State.resetEdge_flast : s.resetEdge.flast = 0#24 := rfl
@[simp] theorem State.resetEdge_unp : s.resetEdge.unp = .reset := rfl
@[simp] theorem State.resetEdge_ill : s.resetEdge.ill = false := rfl
@[simp] theorem State.resetEdge_illcw : s.resetEdge.illcw = 0#16 := rfl
@[simp] theorem State.resetEdge_rsp : s.resetEdge.rsp = [] := rfl
@[simp] theorem State.resetEdge_inbox : s.resetEdge.inbox = s.inbox := rfl

end resetEdge

section takeResponse

variable (s : State)

@[simp] theorem State.takeResponse_line : s.takeResponse.line = s.line := rfl
@[simp] theorem State.takeResponse_errcnt : s.takeResponse.errcnt = s.errcnt := rfl
@[simp] theorem State.takeResponse_flast : s.takeResponse.flast = s.flast := rfl
@[simp] theorem State.takeResponse_unp : s.takeResponse.unp = s.unp := rfl
@[simp] theorem State.takeResponse_ill : s.takeResponse.ill = s.ill := rfl
@[simp] theorem State.takeResponse_illcw : s.takeResponse.illcw = s.illcw := rfl
@[simp] theorem State.takeResponse_rsp : s.takeResponse.rsp = s.rsp.tail := rfl
@[simp] theorem State.takeResponse_inbox : s.takeResponse.inbox = s.inbox := rfl

end takeResponse

section unpacker

variable (u : Unpacker) (m : Scheme)

@[simp] theorem Unpacker.begin_rb : (u.begin m).rb = u.rb := rfl
@[simp] theorem Unpacker.begin_L : (u.begin m).L = 0 := rfl
@[simp] theorem Unpacker.begin_mode : (u.begin m).mode = m := rfl
@[simp] theorem Unpacker.begin_bad : (u.begin m).bad = false := rfl
@[simp] theorem Unpacker.begin_uovf : (u.begin m).uovf = false := rfl

variable (b : Byte)

theorem Unpacker.push_of_lt (h : u.L.val < Config.rbBytes) :
    u.push b = { u with rb := u.rb.write u.L.val b, L := ⟨u.L.val + 1, Nat.succ_lt_succ h⟩ } := dif_pos h

theorem Unpacker.push_of_full (h : u.L.val = Config.rbBytes) : u.push b = { u with uovf := true } :=
  dif_neg (by omega)

@[simp] theorem Unpacker.push_mode : (u.push b).mode = u.mode := by unfold Unpacker.push; split <;> rfl
@[simp] theorem Unpacker.push_bad : (u.push b).bad = u.bad := by unfold Unpacker.push; split <;> rfl

end unpacker

end Sys2Proof.Machine
end

