-- ==== Sys2Proof/Laws/Exec.lean ====
section
/-! SUPPORT. What each meaning answers, said once, so that no later proof unfolds `exec`, `accept` or `step`. -/

namespace Sys2Proof.Machine

variable (s : State)

theorem exec_fsym (c : Symbol) : exec (.fsym c) s = .next { s with line := s.line.push c } := rfl

theorem exec_feol : exec .feol s =
    .next (({ s with
      line := .start
      errcnt := countFailure s.line.result.status s.errcnt
      flast := s.line.result.summary }).emit
        [.fres s.line.result, .fpos s.line.result.start s.line.result.len,
         .fcnt (countFailure s.line.result.status s.errcnt)]) := rfl

theorem exec_ubegin_t12 : exec (.ubegin 0#2) s = .next { s with unp := s.unp.begin .t12 } := rfl
theorem exec_ubegin_t12x5 : exec (.ubegin 1#2) s = .next { s with unp := s.unp.begin .t12x5 } := rfl
theorem exec_ubegin_b8 : exec (.ubegin 2#2) s = .next { s with unp := s.unp.begin .b8 } := rfl
theorem exec_ubegin_three : exec (.ubegin 3#2) s = .next (s.illegalCommand 0x4003#16) := rfl
theorem exec_upush (b : Byte) : exec (.upush b) s = .next { s with unp := s.unp.push b } := rfl
theorem exec_ufail : exec .ufail s = .next { s with unp := { s.unp with bad := true } } := rfl
theorem exec_ucnt : exec .ucnt s = .next (s.emit [s.unp.header]) := rfl
theorem exec_uget (i : BitVec 12) : exec (.uget i) s = .next (s.emit [s.unp.answer i]) := rfl
theorem exec_urun : exec .urun s = .next (s.emit s.unp.decoded) := rfl
theorem exec_rdsr (r : BitVec 2) : exec (.rdsr r) s = .next (s.emit [.sreg (s.statusReg r)]) := rfl

/-- The four values of a 2-bit operand. -/
theorem twoBit_cases (m : BitVec 2) : m = 0#2 ∨ m = 1#2 ∨ m = 2#2 ∨ m = 3#2 := by
  revert m; decide

/-- What a `UBEGIN` can do: start a buffer in the scheme it names, or, where it names none, be an illegal command. -/
theorem exec_ubegin_cases (m : BitVec 2) :
    (∃ sch, sch.bits = m ∧ exec (.ubegin m) s = .next { s with unp := s.unp.begin sch }) ∨
      (m = 3#2 ∧ exec (.ubegin m) s = .next (s.illegalCommand 0x4003#16)) := by
  rcases twoBit_cases m with rfl | rfl | rfl | rfl
  · exact .inl ⟨.t12, rfl, rfl⟩
  · exact .inl ⟨.t12x5, rfl, rfl⟩
  · exact .inl ⟨.b8, rfl, rfl⟩
  · exact .inr ⟨rfl, rfl⟩

theorem accept_of_ok {cw : CommandWord} {i : Instr} (h : decode cw = .ok i) : accept cw s = exec i s := by
  simp only [accept, h]

theorem accept_of_error {cw : CommandWord} {e : IllegalWord} (h : decode cw = .error e) :
    accept cw s = .next (s.illegalCommand cw) := by
  simp only [accept, h]

@[simp] theorem execAll_nil : execAll [] s = .next s := rfl

theorem execAll_cons_of_next {i : Instr} {is : List Instr} {s t : State} (h : exec i s = .next t) :
    execAll (i :: is) s = execAll is t := by
  simp only [execAll, h]

/-- Running two sequences one after the other. -/
theorem execAll_append (is js : List Instr) {s t : State} (h : execAll is s = .next t) :
    execAll (is ++ js) s = execAll js t := by
  induction is generalizing s with
  | nil => simp_all
  | cons i is ih =>
    simp only [execAll, List.cons_append] at h ⊢
    split at h
    · exact ih h
    · cases h
    · cases h

/-- A run that begins with a step answering a next state goes on from it. -/
theorem core_run_succ_of_next (k : Nat) {s t : State} (h : step s = .next t) : core.run (k + 1) s = core.run k t := by
  have h' : core.step s = .next t := h
  simp only [Host.Core.run, h']

/-- A run that answers a state begins with a step that does. -/
theorem core_run_succ_next {k : Nat} {s u : State} (h : core.run (k + 1) s = .next u) :
    ∃ t, step s = .next t ∧ core.run k t = .next u := by
  cases hs : core.step s with
  | next t => exact ⟨t, hs, by simpa only [Host.Core.run, hs] using h⟩
  | fault f => cases f
  | refused r => simp only [Host.Core.run, hs] at h; cases h

/-- The memory address a `UPUSH` stores to is below the capacity, and the buffer keeps its canonical form. -/
theorem Unpacker.push_rb (u : Unpacker) (b : Byte) :
    (u.push b).rb = if u.L.val < Config.rbBytes then u.rb.write u.L.val b else u.rb := by
  unfold Unpacker.push
  split <;> simp_all

end Sys2Proof.Machine
end

