-- ==== Sys2Proof/Laws/Memory.lean ====
section
/-! SUPPORT. The laws of the raw buffer: what a read gives after a write, and the canonical form kept. -/

namespace Sys2Proof.Machine

@[simp] theorem Memory.read_nil (a : Nat) : Memory.read [] a = rbUnlisted := rfl

@[simp] theorem Memory.read_cons (c : Host.Cell) (m : Memory) (a : Nat) :
    Memory.read (c :: m) a = if c.1 = a then c.2 else Memory.read m a := rfl

/-- An address below every listed one is not listed. -/
theorem Memory.read_of_lt_all (m : Memory) (a : Nat) (h : ∀ c ∈ m, a < c.1) : m.read a = rbUnlisted := by
  induction m with
  | nil => rfl
  | cons c m ih =>
    have hc := h c List.mem_cons_self
    rw [Memory.read_cons, if_neg (by omega)]
    exact ih fun d hd => h d (List.mem_cons_of_mem _ hd)

/-- Every listed address after a write is the written one or was listed. -/
theorem Memory.mem_write {m : Memory} {a : Nat} {v : Byte} {c : Host.Cell} (h : c ∈ m.write a v) :
    (c = (a, v) ∧ v ≠ rbUnlisted) ∨ c ∈ m := by
  induction m with
  | nil =>
    by_cases hv : v = rbUnlisted <;> simp_all [Memory.write]
  | cons d m ih =>
    unfold Memory.write at h
    split at h
    · split at h
      · exact .inr h
      · rcases List.mem_cons.1 h with h | h
        · exact .inl ⟨h, by assumption⟩
        · exact .inr h
    · split at h
      · split at h
        · exact .inr (List.mem_cons_of_mem _ h)
        · rcases List.mem_cons.1 h with h | h
          · exact .inl ⟨h, by assumption⟩
          · exact .inr (List.mem_cons_of_mem _ h)
      · rcases List.mem_cons.1 h with h | h
        · exact .inr (h ▸ List.mem_cons_self)
        · exact (ih h).imp_right (List.mem_cons_of_mem _)

/-- A write keeps the canonical form. -/
theorem Memory.write_wf {m : Memory} (h : m.wf) {a : Nat} (ha : a < Config.rbBytes) (v : Byte) : (m.write a v).wf := by
  refine ⟨?_, fun c hc => ?_⟩
  · obtain ⟨hp, -⟩ := h
    induction m with
    | nil => unfold Memory.write; split <;> simp
    | cons d m ih =>
      obtain ⟨hd, hp'⟩ := List.pairwise_cons.1 hp
      unfold Memory.write
      split
      · next hlt =>
        split
        · exact hp
        · exact List.pairwise_cons.2 ⟨fun x hx => by
            rcases List.mem_cons.1 hx with rfl | hx
            · exact hlt
            · exact Nat.lt_trans hlt (hd x hx), hp⟩
      · split
        · next heq =>
          split
          · exact hp'
          · exact List.pairwise_cons.2 ⟨fun x hx => by have := hd x hx; simp only; omega, hp'⟩
        · refine List.pairwise_cons.2 ⟨fun x hx => ?_, ih hp'⟩
          rcases Memory.mem_write hx with ⟨rfl, -⟩ | hx
          · simp only; omega
          · exact hd x hx
  · rcases Memory.mem_write hc with ⟨rfl, hv⟩ | hc
    · exact ⟨ha, hv⟩
    · exact h.2 c hc

/-- A read after a write: the written byte at its address, the old byte at every other. The canonical form is needed: a
removed entry must not uncover another of the same address. -/
theorem Memory.read_write {m : Memory} (h : m.Pairwise fun x y => x.1 < y.1) (a : Nat) (v : Byte) (b : Nat) :
    (m.write a v).read b = if b = a then v else m.read b := by
  induction m with
  | nil =>
    unfold Memory.write
    by_cases hb : b = a
    · by_cases hv : v = rbUnlisted <;> simp [hv, hb]
    · have hab : ¬a = b := fun h => hb h.symm
      by_cases hv : v = rbUnlisted <;> simp [hv, hb, hab]
  | cons d m ih =>
    obtain ⟨hd, hp⟩ := List.pairwise_cons.1 h
    unfold Memory.write
    split
    · next hlt =>
      have hall : ∀ c ∈ d :: m, a < c.1 := fun c hc => by
        rcases List.mem_cons.1 hc with rfl | hc
        · exact hlt
        · exact Nat.lt_trans hlt (hd c hc)
      by_cases hv : v = rbUnlisted
      · rw [if_pos hv]
        by_cases hb : b = a
        · rw [if_pos hb, hb, hv]; exact Memory.read_of_lt_all _ _ hall
        · rw [if_neg hb]
      · rw [if_neg hv, Memory.read_cons (a, v)]; simp only [eq_comm (a := a)]
    · split
      · next heq =>
        by_cases hv : v = rbUnlisted
        · rw [if_pos hv]
          by_cases hb : b = a
          · rw [if_pos hb, hb, hv]
            exact Memory.read_of_lt_all _ _ fun c hc => by have := hd c hc; omega
          · rw [if_neg hb, Memory.read_cons, if_neg (by omega)]
        · rw [if_neg hv, Memory.read_cons, Memory.read_cons, ← heq]
          simp only [eq_comm (a := a)]
          split <;> rfl
      · rw [Memory.read_cons, Memory.read_cons, ih hp]
        by_cases hb : b = a
        · rw [if_neg (by omega), if_pos hb]; simp [hb]
        · simp [hb]

/-- In a canonical buffer a read of the address just written gives the byte written. -/
theorem Memory.read_write_same {m : Memory} (h : m.wf) (a : Nat) (v : Byte) : (m.write a v).read a = v := by
  rw [Memory.read_write h.1, if_pos rfl]

/-- A write leaves every other address alone, whatever the form of the list. -/
theorem Memory.read_write_ne (m : Memory) {a b : Nat} (v : Byte) (hb : b ≠ a) : (m.write a v).read b = m.read b := by
  have hab : ¬a = b := fun h => hb h.symm
  induction m with
  | nil => unfold Memory.write; split <;> simp [hab]
  | cons d m ih =>
    unfold Memory.write
    split
    · split <;> simp [hab]
    · split
      · next heq => split <;> simp [← heq, hab]
      · simp [ih]

/-- A nibble depends only on the byte that holds it. -/
theorem Memory.nib_congr {m m' : Memory} {n : Nat} (h : m.read (n / 2) = m'.read (n / 2)) : m.nib n = m'.nib n := by
  simp only [Memory.nib, h]

end Sys2Proof.Machine
end

