-- ==== Sys2Proof/Laws/PerInstr.lean ====
section
/-! SUPPORT. Per-instruction lemmas: the family `OpcodeField` says that the word of an instruction carries the opcode of
30_encoding.md R72 in its bits 15:12. -/

namespace Sys2Proof.Laws.OpcodeField

/-- The word's `op` field is the command's opcode. -/
def Statement (i : Instr) : Prop := opOf (encode i) = i.op

/-- The upper field of a word put together from `op` and `arg`. -/
theorem opOf_append (op : BitVec 4) (arg : BitVec 12) : opOf (op ++ arg) = op := by
  unfold opOf
  exact BitVec.extractLsb'_append_eq_left

theorem fsym (c : Symbol) : Statement (.fsym c) := opOf_append _ _
theorem feol : Statement .feol := opOf_append _ _
theorem ubegin (m : BitVec 2) : Statement (.ubegin m) := opOf_append _ _
theorem upush (b : Byte) : Statement (.upush b) := opOf_append _ _
theorem ufail : Statement .ufail := opOf_append _ _
theorem ucnt : Statement .ucnt := opOf_append _ _
theorem uget (k : BitVec 12) : Statement (.uget k) := opOf_append _ _
theorem urun : Statement .urun := opOf_append _ _
theorem rdsr (r : BitVec 2) : Statement (.rdsr r) := opOf_append _ _

end Sys2Proof.Laws.OpcodeField
end

