-- ==== Sys2Proof/Laws/Run.lean ====
section
/-! SUPPORT. What a command, a step and an observed run can do to the response stream, said once. -/

namespace Sys2Proof.Machine

/-- A command answers a next state and appends to the response stream; what it does to the rest of the state, and what it
appends, do not depend on the words that wait or on what the host will do next. -/
theorem exec_appends (i : Instr) (s : State) :
    ∃ (t : State) (ws : List ResponseWord),
      ∀ rsp inbox, exec i { s with rsp := rsp, inbox := inbox } = .next { t with rsp := rsp ++ ws, inbox := inbox } := by
  cases i with
  | fsym c => exact ⟨{ s with line := s.line.push c }, [], fun rsp inbox => by simp [exec_fsym]⟩
  | feol =>
    exact ⟨{ s with
      line := .start
      errcnt := countFailure s.line.result.status s.errcnt
      flast := s.line.result.summary },
      [Response.fres s.line.result, .fpos s.line.result.start s.line.result.len,
        .fcnt (countFailure s.line.result.status s.errcnt)].map Response.word, fun _ _ => rfl⟩
  | ubegin m =>
    rcases twoBit_cases m with rfl | rfl | rfl | rfl
    · exact ⟨{ s with unp := s.unp.begin .t12 }, [], fun rsp inbox => by simp [exec_ubegin_t12]⟩
    · exact ⟨{ s with unp := s.unp.begin .t12x5 }, [], fun rsp inbox => by simp [exec_ubegin_t12x5]⟩
    · exact ⟨{ s with unp := s.unp.begin .b8 }, [], fun rsp inbox => by simp [exec_ubegin_b8]⟩
    · exact ⟨{ s with illcw := if s.ill then s.illcw else 0x4003#16, ill := true },
        [(Response.eill 0x4003#16).word], fun _ _ => rfl⟩
  | upush b => exact ⟨{ s with unp := s.unp.push b }, [], fun rsp inbox => by simp [exec_upush]⟩
  | ufail => exact ⟨{ s with unp := { s.unp with bad := true } }, [], fun rsp inbox => by simp [exec_ufail]⟩
  | ucnt => exact ⟨s, [s.unp.header.word], fun _ _ => rfl⟩
  | uget k => exact ⟨s, [(s.unp.answer k).word], fun _ _ => rfl⟩
  | urun => exact ⟨s, s.unp.decoded.map Response.word, fun _ _ => rfl⟩
  | rdsr r => exact ⟨s, [(Response.sreg (s.statusReg r)).word], fun _ _ => rfl⟩

/-- The same of an accepted word, legal or not. -/
theorem accept_appends (cw : CommandWord) (s : State) :
    ∃ (t : State) (ws : List ResponseWord),
      ∀ rsp inbox, accept cw { s with rsp := rsp, inbox := inbox } = .next { t with rsp := rsp ++ ws, inbox := inbox } := by
  cases h : decode cw with
  | ok i =>
    obtain ⟨t, ws, e⟩ := exec_appends i s
    exact ⟨t, ws, fun rsp inbox => by rw [accept_of_ok _ h, e]⟩
  | error x =>
    exact ⟨{ s with illcw := if s.ill then s.illcw else cw, ill := true }, [(Response.eill cw).word],
      fun _ _ => accept_of_error _ h⟩

/-- A command does not touch the inbox. -/
theorem exec_inbox {i : Instr} {s t : State} (h : exec i s = .next t) : t.inbox = s.inbox := by
  cases i with
  | ubegin m => rcases twoBit_cases m with rfl | rfl | rfl | rfl <;> cases h <;> rfl
  | fsym _ => cases h; rfl
  | feol => cases h; rfl
  | upush _ => cases h; rfl
  | ufail => cases h; rfl
  | ucnt => cases h; rfl
  | uget _ => cases h; rfl
  | urun => cases h; rfl
  | rdsr _ => cases h; rfl

/-- An accepted word, legal or not, does not touch the inbox. -/
theorem accept_inbox {cw : CommandWord} {s t : State} (h : accept cw s = .next t) : t.inbox = s.inbox := by
  cases hd : decode cw with
  | ok i => rw [accept_of_ok _ hd] at h; exact exec_inbox h
  | error e => rw [accept_of_error _ hd] at h; cases h; rfl

theorem step_nil {s : State} (h : s.inbox = []) : step s = .next s := by simp only [step, h]

theorem step_cons {s : State} {e : HostEvent} {rest : List HostEvent} (h : s.inbox = e :: rest) :
    step s = onEvent e { s with inbox := rest } := by simp only [step, h]

@[simp] theorem observeSteps_zero (s : State) : observeSteps 0 s = .next ⟨[], s⟩ := rfl

/-- An observed run goes on from its first step. -/
theorem observeSteps_succ {k : Nat} {s t : State} {o : Observation} (h : step s = .next t)
    (ho : observeSteps k t = .next o) :
    observeSteps (k + 1) s = .next ⟨s.takenNext ++ o.responses, o.final⟩ := by
  simp only [observeSteps, h, ho]

/-- An observed run in two parts. -/
theorem observeSteps_add {j k : Nat} {s : State} {o o' : Observation} (h : observeSteps j s = .next o)
    (h' : observeSteps k o.final = .next o') :
    observeSteps (j + k) s = .next ⟨o.responses ++ o'.responses, o'.final⟩ := by
  induction j generalizing s o with
  | zero => cases h; simpa using h'
  | succ j ih =>
    simp only [observeSteps] at h
    split at h
    · rename_i t ht
      split at h
      · rename_i q hq
        cases h
        rw [Nat.add_right_comm, observeSteps_succ ht (ih hq h')]
        simp
      · cases h
      · cases h
    · cases h
    · cases h

end Sys2Proof.Machine
end

