-- ==== Sys2Proof/Tests/Slice0.lean ====
section
/-! SUPPORT. The model's own tests. Expected results come from the spec: words from the pattern table of 30_encoding.md R73,
results from the vectors of 95_test_vectors.md, named in each docstring. The last part has a witness for the hypotheses of
every obligation. -/

namespace Sys2Proof.Tests

open Sys2Proof Sys2Proof.Machine

/-! ### Well-formedness -/

/-- 30_encoding.md R86 (d): `UBEGIN 3` names no scheme. -/
theorem test_wf_refuses_ubegin_3 : (Instr.ubegin 3).wf = false := by decide

/-- 30_encoding.md R73: `UBEGIN` of the greatest scheme number is well formed. -/
theorem test_wf_accepts_ubegin_2 : (Instr.ubegin 2).wf = true := by decide

/-! ### Decoding: one word of every constructor, written bit by bit from R73, and one word of every kind of illegal word -/

theorem test_decode_fsym : decode 0b0000000000100100#16 = .ok (.fsym 0x24) := by rfl
theorem test_decode_feol : decode 0b0001000000000000#16 = .ok .feol := by rfl
theorem test_decode_ubegin : decode 0b0100000000000010#16 = .ok (.ubegin 2) := by rfl
theorem test_decode_upush : decode 0b0101000010100101#16 = .ok (.upush 0xA5) := by rfl
theorem test_decode_ufail : decode 0b0110000000000000#16 = .ok .ufail := by rfl
theorem test_decode_ucnt : decode 0b0111000000000000#16 = .ok .ucnt := by rfl
theorem test_decode_uget : decode 0b1000101000000101#16 = .ok (.uget 0xA05) := by rfl
theorem test_decode_urun : decode 0b1001000000000000#16 = .ok .urun := by rfl
theorem test_decode_rdsr : decode 0b1100000000000001#16 = .ok (.rdsr 1) := by rfl

/-- 95_test_vectors.md V50, 30_encoding.md R86 (a) to (e). -/
theorem test_decode_illegal :
    decode 0x2000 = .error (.noCommand 0x2) ∧ decode 0xFFFF = .error (.noCommand 0xF) ∧
    decode 0x0100 = .error .valueBits ∧ decode 0x5100 = .error .valueBits ∧ decode 0x1800 = .error .operandBits ∧
    decode 0x7010 = .error .operandBits ∧ decode 0x4003 = .error .ubeginOperand ∧
    decode 0x4004 = .error .ubeginOperand ∧ decode 0xC004 = .error .rdsrOperand :=
  ⟨rfl, rfl, rfl, rfl, rfl, rfl, rfl, rfl, rfl⟩

/-- 30_encoding.md R92, the example: `FLINE "$A*41"` is six words. -/
theorem test_assemble_fline :
    assembleLine "FLINE \"$A*41\"".toList = some [0x0024, 0x0041, 0x002A, 0x0034, 0x0031, 0x1000] := by decide

/-! ### One step of every command -/

/-- The words emitted in a step from a state whose stream is empty. -/
def emitted : Host.Outcome State Fault Refusal → List ResponseWord
  | .next s => s.rsp
  | .fault _ => []
  | .refused _ => []

/-- The reset state with this line pushed. -/
def withLine (cs : List Symbol) : State := { State.reset with line := cs.foldl LineRegs.push .start }

/-- The reset state with this buffer. -/
def withBuffer (m : Scheme) (bs : List Byte) : State :=
  { State.reset with unp := bs.foldl Unpacker.push (Unpacker.reset.begin m) }

/-- The reset state with these events to come. -/
def withInbox (es : List HostEvent) : State := { State.reset with inbox := es }

/-- `$A*41` and `$A*42` as symbols (30_encoding.md R92). -/
def goodLine : List Symbol := [0x24, 0x41, 0x2A, 0x34, 0x31]
def badLine : List Symbol := [0x24, 0x41, 0x2A, 0x34, 0x32]

/-- 40_framer.md R101, the example. -/
theorem test_fsym_dollar : (withLine [0x24]).line = ⟨.body, 1, 0, 0, 0, 0, 0, 0, 0, true, false⟩ := by decide

/-- 95_test_vectors.md V18: the registers after `x$A*B*29\rZ`. -/
theorem test_fsym_trace :
    (withLine [0x78, 0x24, 0x41, 0x2A, 0x42, 0x2A, 0x32, 0x39, 0x0D, 0x5A]).line =
      ⟨.tail, 10, 1, 5, 0x5F, 0x29, 3, 0x32, 0x39, false, false⟩ := by decide

/-- 40_framer.md R103, the example. -/
theorem test_feol_ok :
    emitted (exec .feol (withLine goodLine)) = [0x100414101#36, 0x200010001#36, 0x300000000#36] := by decide

/-- 95_test_vectors.md V19 (c): a checksum failure at the greatest count. -/
theorem test_feol_saturates :
    emitted (exec .feol { withLine badLine with errcnt := 0xFFFFFFFF }) =
      [0x100424102#36, 0x200010001#36, 0x3FFFFFFFF#36] := by decide

/-- 41_unpacker.md R140, the example. -/
theorem test_ubegin :
    exec (.ubegin 1) (withBuffer .t12 [0x21]) = .next (withBuffer .t12x5 [] |> fun s =>
      { s with unp := { s.unp with rb := [(0, 0x21)] } }) := by rfl

/-- 41_unpacker.md R142, the example. -/
theorem test_upush :
    exec (.upush 0x21) (withBuffer .t12 []) =
      .next { State.reset with unp := ⟨[(0, 0x21)], 1, .t12, false, false⟩ } := by rfl

/-- 95_test_vectors.md V61: `UBEGIN 2`, 3 bytes, `UFAIL`, then `USTAT`. -/
theorem test_ufail :
    exec .ufail (withBuffer .b8 [1, 2, 3]) =
      .next { State.reset with unp := ⟨[(0, 1), (1, 2), (2, 3)], 3, .b8, true, false⟩ } := by rfl

/-- 95_test_vectors.md V24: `L = 14` in scheme `T12X5`. -/
theorem test_ucnt : emitted (exec .ucnt (withBuffer .t12x5 (List.replicate 14 0x11))) = [0x4950D0001#36] := by decide

/-- 41_unpacker.md R153, the example. -/
theorem test_uget : emitted (exec (.uget 1) (withBuffer .t12 [0x21, 0x43, 0x65])) = [0x50654E2FC#36] := by decide

/-- 95_test_vectors.md V37: an index of a truncated group. -/
theorem test_uget_range :
    emitted (exec (.uget 5) (withBuffer .t12x5 (List.replicate 14 0x11))) = [0x600050002#36] := by decide

/-- 95_test_vectors.md V32: a truncated tail. -/
theorem test_urun_t12 :
    emitted (exec .urun (withBuffer .t12 [0xAB, 0xCD, 0xEF, 0x12, 0x34])) =
      [0x481010003#36, 0x50DABF901#36, 0x50EFCFCF4#36, 0x50412DC36#36] := by decide

/-- 95_test_vectors.md V34: the scale of `B8`. -/
theorem test_urun_b8 :
    emitted (exec .urun (withBuffer .b8 [0x00, 0x01, 0x80, 0xFF])) =
      [0x4A1000004#36, 0x50000D000#36, 0x50001D030#36, 0x50080E800#36, 0x500FFFFD0#36] := by decide

/-- 95_test_vectors.md V61: `USTAT` after `UBEGIN 1` and 15 bytes. -/
theorem test_rdsr_ustat :
    emitted (exec (.rdsr 2) (withBuffer .t12x5 (List.replicate 15 0x11))) = [0x80001000F#36] := by decide

/-- 95_test_vectors.md P5: `RDSR ESTAT` once 0x0124 was the first offender. -/
theorem test_rdsr_estat :
    emitted (exec (.rdsr 3) { State.reset with ill := true, illcw := 0x0124 }) = [0x801240001#36] := by decide

/-- 95_test_vectors.md V50: the word 0xB123 in the reset state. -/
theorem test_illegal_command :
    step (State.reset.withFetchWord 16 0xB123) =
      .next { State.reset with ill := true, illcw := 0xB123, rsp := [0xF0000B123#36] } := by rfl

/-- 95_test_vectors.md V60: `FEOL` presented in the reset state. -/
theorem test_step_runs_word :
    emitted (step (State.reset.withFetchWord 16 0x1000)) = [0x100000007#36, 0x200000000#36, 0x300000000#36] := by decide

/-! ### Witnesses: states and operands that meet the hypotheses of the obligations -/

/-- A line whose registers say it is too long. -/
def tooLong : LineRegs := { LineRegs.start with pos := 65535, ovf := true }

/-- A line at its last symbol but one. -/
def full : LineRegs := { LineRegs.start with pos := 65535 }

/-- A buffer of the greatest length, as its registers say. -/
def fullBuffer : State := { State.reset with unp := { Unpacker.reset with L := 4096 } }

theorem witness_DecodeOfEncodeIsSame : (Instr.uget 4095).wf = true := by decide

theorem witness_EncodeOfDecodeIsSame : decode 0x8FFF = .ok (.uget 4095) := by rfl

theorem witness_LegalWordsHitOneTableRow :
    (⟨"UBEGIN", 0x4000, 0xFFFC⟩ ∈ commandTable ∧ TableRow.hits ⟨"UBEGIN", 0x4000, 0xFFFC⟩ 0x4002 = true) ∧
    (0x4002 : CommandWord).extractLsb' 0 2 ≠ 3#2 ∧ decode 0x4002 = .ok (.ubegin 2) :=
  ⟨⟨by decide, by decide⟩, by decide, rfl⟩

theorem witness_PseudoInstructionsExpand : (2#2 : BitVec 2) ≠ 3#2 := by decide

theorem witness_OnlyRawWordsAssembleIllegal :
    expand .uget [.word "4095".toList] = some [0x8FFF] ∧ SourceOp.uget ≠ .rawWord := by decide

theorem witness_StepRunsDecodedCommand :
    (withInbox [.command 0x7000]).inbox = .command 0x7000 :: [] ∧ decode 0x7000 = .ok .ucnt := ⟨rfl, rfl⟩

theorem witness_IllegalCommandsAndTheirEffect :
    (withInbox [.command 0xF000]).inbox = .command 0xF000 :: [] ∧ ∀ i, decode 0xF000 ≠ .ok i := ⟨rfl, nofun⟩

theorem witness_ResetEdgeEffect : (withInbox [.reset]).inbox = .reset :: [] := rfl

theorem witness_TakeAndIdleEffect :
    (({ withInbox [.take] with rsp := [0x300000000#36] } : State).inbox = .take :: [] ∧
      ({ withInbox [.take] with rsp := [0x300000000#36] } : State).rsp = 0x300000000#36 :: []) ∧
    ((withInbox [.take]).inbox = .take :: [] ∧ (withInbox [.take]).rsp = []) ∧ State.reset.inbox = [] :=
  ⟨⟨rfl, rfl⟩, ⟨rfl, rfl⟩, rfl⟩

/-- A state with a line in progress, a counted failure and a loaded buffer. -/
def busy : State :=
  { withLine goodLine with
    errcnt := 1, flast := 0x424102, unp := (withBuffer .t12x5 [0x21, 0x43]).unp
    ill := true, illcw := 0x4003, rsp := [0xF00004003#36], inbox := [.command 0x1000] }

theorem witness_StepKeepsInvariant : busy.Inv ∧ ∃ t, step busy = .next t :=
  ⟨{ line := ⟨by decide, by decide, by decide, by decide, by decide⟩
     flast := .inr ⟨⟨.checksum, .none, 0x41, 0x42, 0, 0⟩, ⟨rfl, show (0x42#8) ≠ 0x41#8 by decide⟩,
       show 0x424102#24 = LineResult.summary _ by rfl⟩
     buffer := by decide
     offender := by decide
     kinds := fun w h => by
       rw [show w = 0xF00004003#36 from List.mem_singleton.mp h]
       decide }, _, rfl⟩

/-- One state for each case of a push, the boundary values of `pos` and `tcnt` among them. -/
theorem witness_FsymPushesSymbol :
    (tooLong.ovf = true) ∧ (full.ovf = false ∧ full.pos = 65535#16) ∧
    (LineRegs.start.ovf = false ∧ LineRegs.start.pos ≠ 65535#16 ∧ LineRegs.start.ph = .seek) ∧
    ((withLine [0x24]).line.ovf = false ∧ (withLine [0x24]).line.pos ≠ 65535#16 ∧ (withLine [0x24]).line.ph = .body) ∧
    ((withLine (goodLine.take 3)).line.ph = .tail ∧ (withLine (goodLine.take 3)).line.tcnt = 0#2) ∧
    ((withLine (goodLine.take 4)).line.ph = .tail ∧ (withLine (goodLine.take 4)).line.tcnt = 1#2) ∧
    ((withLine goodLine).line.ph = .tail ∧ (withLine goodLine).line.tcnt = 2#2) ∧
    ((withLine (goodLine ++ [0x0D])).line.ph = .tail ∧ (withLine (goodLine ++ [0x0D])).line.tcnt = 3#2) := by decide

/-- One state for each outcome of `FEOL`. -/
theorem witness_FeolEvaluatesLine :
    tooLong.ovf = true ∧ (full.ovf = false ∧ full.ph = .seek) ∧ (withLine [0x24]).line.ph = .body ∧
    ((withLine (goodLine.take 4)).line.ph = .tail ∧ (withLine (goodLine.take 4)).line.tcnt.toNat < 2) ∧
    (2 ≤ (withLine [0x24, 0x2A, 0x47, 0x30]).line.tcnt.toNat ∧ isHex (withLine [0x24, 0x2A, 0x47, 0x30]).line.h1 = false) ∧
    (isHex (withLine (goodLine ++ [0x20])).line.h1 = true ∧ isHex (withLine (goodLine ++ [0x20])).line.h0 = true ∧
      (withLine (goodLine ++ [0x20])).line.tailOk = false) ∧
    ((withLine goodLine).line.tailOk = true ∧ (0x41#8).toNat = 16 * (hexVal (withLine goodLine).line.h1).toNat +
      (hexVal (withLine goodLine).line.h0).toNat ∧ 0x41#8 = (withLine goodLine).line.snap) ∧
    ((withLine badLine).line.tailOk = true ∧ (0x42#8).toNat = 16 * (hexVal (withLine badLine).line.h1).toNat +
      (hexVal (withLine badLine).line.h0).toNat ∧ 0x42#8 ≠ (withLine badLine).line.snap) := by decide

theorem witness_FramerCommandsFrame : isFramer .feol = true ∧ ∃ t, exec .feol busy = .next t := ⟨rfl, _, rfl⟩

/-- A line with a `$`, a `*` and two symbols after it; a line of the greatest length, and one longer. -/
theorem witness_PushedSymbolsDetermineRegisters :
    State.reset.lineStart ∧ goodLine.length ≤ 65535 ∧ goodLine.findIdx? (· == 0x24#8) = some 0 ∧
    (goodLine.drop 1)[1]? = some 0x2A#8 ∧ 0x2A#8 ∉ goodLine.drop 3 ∧
    (List.replicate 65535 (0x41#8)).length ≤ 65535 ∧ 65535 < (List.replicate 65536 (0x41#8)).length :=
  ⟨rfl, by decide, by decide, by decide, by decide, List.length_replicate.le,
    Nat.lt_of_lt_of_eq (by decide) List.length_replicate.symm⟩

theorem witness_FeolReportsFrameOfLine :
    State.reset.lineStart ∧ (∀ i ∈ [Instr.fsym 0x24, .ubegin 2, .rdsr 0, .fsym 0x41], i.wf = true) ∧
    [Instr.fsym 0x24, .ubegin 2, .rdsr 0, .fsym 0x41].filter isFramer = [0x24#8, 0x41#8].map .fsym :=
  ⟨rfl, by decide, by decide⟩

/-- The empty payload, and the longest. -/
theorem witness_ChecksumRoundTrip :
    (∀ c ∈ [0x0D#8, 0x0A#8], c = 0x0D#8 ∨ c = 0x0A#8) ∧ ([] : List Symbol).length + [0x0D#8, 0x0A#8].length ≤ 65531 ∧
    (List.replicate 65531 (0x24#8)).length + ([] : List Symbol).length ≤ 65531 :=
  ⟨by decide, by decide, by rw [List.length_replicate]; decide⟩

/-- A payload symbol and the two suffix symbols of `$A*41`. -/
theorem witness_SingleBitFlipIsCaught :
    (frame goodLine).status = .ok ∧ goodLine[1]? = some 0x41#8 ∧
    (frame goodLine).start.toNat = 1 ∧ (frame goodLine).len.toNat = 1 ∧
    goodLine[3]? = some 0x34#8 ∧ goodLine[4]? = some 0x31#8 := by decide

theorem witness_ValidLineAfterAnyLineIsOk : (frame goodLine).status = .ok := by decide

theorem witness_PhaseTransitions :
    (∃ t, exec (.fsym 0x24) State.reset = .next t ∧ t.line.ph ≠ State.reset.line.ph) ∧
    (∃ t, exec (.fsym 0x2A) (withLine [0x24]) = .next t ∧ t.line.ph ≠ (withLine [0x24]).line.ph) ∧
    ∃ t, exec .feol (withLine goodLine) = .next t ∧ t.line.ph ≠ (withLine goodLine).line.ph :=
  ⟨⟨_, rfl, by decide⟩, ⟨_, rfl, by decide⟩, ⟨_, rfl, by decide⟩⟩

theorem witness_ErrcntIsMonotone :
    ∃ t, step { withLine badLine with inbox := [.command 0x1000] } = .next t ∧
      [HostEvent.command 0x1000].head? ≠ some .reset ∧ t.errcnt ≠ 0 :=
  ⟨_, rfl, by decide, by decide⟩

/-- An empty buffer, the last free byte, a full buffer; the memory premise. -/
theorem witness_UpushAppendsByte :
    State.reset.unp.L.val < 4096 ∧ ({ Unpacker.reset with L := 4095 } : Unpacker).L.val < 4096 ∧
    fullBuffer.unp.L.val = 4096 ∧ Memory.wf [(0, 1#8), (4095, 2#8)] := by decide

theorem witness_UgetAnswersOneSample :
    ({ Unpacker.reset with bad := true } : Unpacker).bad = true ∧ sampleCount Unpacker.reset ≤ (0#12).toNat ∧
    (4094#12).toNat < sampleCount { fullBuffer.unp with mode := .b8, L := 4095 } ∧
    (4095#12).toNat < sampleCount { fullBuffer.unp with mode := .b8 } := by decide

theorem witness_UrunIsUcntThenUgets : ∃ t, exec .urun (withBuffer .t12 [0x21, 0x43, 0x65]) = .next t := ⟨_, rfl⟩

theorem witness_PercentileGroupsAreFlat :
    (withBuffer .t12x5 (List.replicate 8 0x11)).unp.mode = .t12x5 ∧
    (∃ t, exec .urun (withBuffer .t12x5 (List.replicate 8 0x11)) = .next t) ∧
    0 < bandCount (withBuffer .t12x5 (List.replicate 8 0x11)).unp ∧ (4 : Nat) < 5 :=
  ⟨by decide, ⟨_, rfl⟩, by decide, by decide⟩

/-- The last sample of a full buffer in each kind of scheme, and two buffers that differ at `L` only. -/
theorem witness_SampleReadsStayBelowL :
    (2729 < fullBuffer.unp.N ∧ fullBuffer.unp.mode ≠ .b8) ∧
    4095 < Unpacker.N { fullBuffer.unp with mode := .b8 } ∧
    (0 < (withBuffer .t12 [0x21, 0x43]).unp.N ∧
      ∀ a < 2, (withBuffer .t12 [0x21, 0x43]).unp.rb.read a = Memory.read [(0, 0x21#8), (1, 0x43#8), (2, 0x65#8)] a) := by
  decide

theorem witness_BandCountIsLargest :
    fullBuffer.unp.valid = true ∧ fullBuffer.unp.mode = .t12 ∧ fullBuffer.unp.REM ≠ 0 ∧
    ({ fullBuffer.unp with mode := .t12x5 } : Unpacker).valid = true ∧
    ({ fullBuffer.unp with mode := .b8 } : Unpacker).valid = true ∧
    ({ fullBuffer.unp with uovf := true } : Unpacker).valid = false := by decide

theorem witness_LoadedBufferHoldsBytes :
    State.reset.unp.rb.wf ∧ (List.replicate 4096 (0x11#8)).length ≤ 4096 ∧ [0x21#8, 0x43#8][1]? = some 0x43#8 :=
  ⟨by decide, List.length_replicate.le, rfl⟩

theorem witness_OverflowedBufferHasNoValue :
    State.reset.unp.rb.wf ∧ 4096 < (List.replicate 4097 (0x11#8)).length ∧ (0 : Nat) < 4096 ∧
    (List.replicate 4097 (0x11#8))[0]? = some 0x11#8 :=
  ⟨by decide, Nat.lt_of_lt_of_eq (by decide) List.length_replicate.symm, by decide, rfl⟩

theorem witness_PoisonLastsUntilUbegin :
    (∀ i ∈ [Instr.upush 1, .ucnt, .feol], ∀ m, i ≠ .ubegin m) ∧
    ({ State.reset with unp := { Unpacker.reset with bad := true } } : State).unp.valid = false ∧
    ∃ t, execAll [Instr.upush 1, .ucnt, .feol] { State.reset with unp := { Unpacker.reset with bad := true } } = .next t :=
  ⟨by simp, by decide, _, rfl⟩

theorem witness_DecibelValuesAreInRange :
    ∃ t, exec .urun (withBuffer .b8 [0x00, 0xFF]) = .next t ∧ 0x500FFFFD0#36 ∈ t.rsp.drop 1 := ⟨_, rfl, by decide⟩

theorem witness_DecibelValuesAreExact : (255#12).toNat < 256 := by decide

/-- The least value of the range, whose nearest code is 0. -/
theorem witness_QuantizationRoundTrip :
    (-192 : ℝ) ≤ -192 ∧ (-192 : ℝ) ≤ -0.046875 ∧
    ∀ other : BitVec 12, |((0#12).toNat : ℝ) - (-192 + 192) / 0.046875| ≤ |(other.toNat : ℝ) - (-192 + 192) / 0.046875| := by
  norm_num

theorem witness_UnpackerRegisterWriters :
    (∃ t, exec (.ubegin 2) State.reset = .next t ∧ t.unp.mode ≠ State.reset.unp.mode) ∧
    (∃ t, exec (.upush 1) State.reset = .next t ∧ t.unp.L ≠ State.reset.unp.L ∧ t.unp.rb ≠ State.reset.unp.rb) ∧
    (∃ t, exec .ufail State.reset = .next t ∧ t.unp.bad ≠ State.reset.unp.bad) ∧
    ∃ t, exec (.upush 1) fullBuffer = .next t ∧ t.unp.uovf ≠ fullBuffer.unp.uovf :=
  ⟨⟨_, rfl, by decide⟩, ⟨_, rfl, by decide, by decide⟩, ⟨_, rfl, by decide⟩, ⟨_, rfl, by decide⟩⟩

theorem witness_UnpackerCommandsFrame :
    isUnpacker (.upush 1) = true ∧ (Instr.upush 1).wf = true ∧ ∃ t, exec (.upush 1) busy = .next t := ⟨rfl, rfl, _, rfl⟩

theorem witness_LineRegistersAreHidden : Instr.rdsr 1 ≠ .feol ∧ ∃ t, exec (.rdsr 1) busy = .next t := ⟨by decide, _, rfl⟩

theorem witness_ResponseCounts : (Instr.urun).wf = true ∧ ∃ t, exec .urun busy = .next t := ⟨rfl, _, rfl⟩

theorem witness_QueriesAreIdempotent :
    ∃ t u, exec .urun busy = .next t ∧ exec .urun t = .next u := ⟨_, _, rfl, rfl⟩

theorem witness_FirstOffenderIsKept :
    (∃ t, step (withInbox [.command 0x4003]) = .next t ∧ (withInbox [.command 0x4003]).inbox.head? ≠ some .reset ∧
      (withInbox [.command 0x4003]).ill = false ∧ t.ill = true) ∧
    (∃ t, step busy = .next t ∧ busy.inbox.head? ≠ some .reset ∧ busy.ill = true) ∧
    ∃ t, step (withInbox [.command 0x7000]) = .next t ∧ t.ill = false :=
  ⟨⟨_, rfl, by decide, by decide, by decide⟩, ⟨_, rfl, by decide, by decide⟩, ⟨_, rfl, by decide⟩⟩

theorem witness_UnitsAreIndependent :
    (∀ i ∈ [Instr.fsym 0x24, .upush 1, .feol, .rdsr 2, .urun], i.wf = true) ∧
    ∃ t, execAll [Instr.fsym 0x24, .upush 1, .feol, .rdsr 2, .urun] State.reset = .next t := ⟨by decide, _, rfl⟩

/-- Two states that differ in a byte at `L` and above, and a step of one. -/
theorem witness_UnwrittenBytesAreUnobservable :
    let other : State := { withInbox [.command 0x9000] with unp := { Unpacker.reset with rb := [(7, 0xAA)] } }
    (withInbox [.command 0x9000]).unp.rb.wf ∧ other.unp.rb.wf ∧ (withInbox [.command 0x9000]).sameBelowL other ∧
      ∃ t, core.run 1 (withInbox [.command 0x9000]) = .next t :=
  ⟨by decide, by decide, ⟨rfl, rfl, rfl, ⟨rfl, rfl, rfl, rfl, nofun⟩, rfl, rfl, rfl, rfl⟩, _, rfl⟩

theorem witness_LaunchPremises :
    (withInbox [.reset]).inbox = .reset :: [] ∧ (∃ t, step (withInbox [.reset]) = .next t) ∧ State.reset.resetDone ∧
    (∃ t, exec .feol busy = .next t) ∧ (∃ t, exec (.ubegin Scheme.b8.bits) busy = .next t) ∧
    (isFramer (.upush 1) = false ∧ (Instr.upush 1).wf = true ∧ State.reset.lineStart) ∧
    (isUnpacker (.fsym 1) = false ∧ State.reset.bufferFresh .t12) ∧
    ((∀ i, decode 0xF000 ≠ .ok i) ∧ ∃ t, accept 0xF000 State.reset = .next t) :=
  ⟨rfl, ⟨_, rfl⟩, ⟨[], rfl⟩, ⟨_, rfl⟩, ⟨_, rfl⟩, ⟨rfl, rfl, rfl⟩, ⟨rfl, rfl, rfl, rfl, rfl⟩, nofun, _, rfl⟩

/-- A host that takes one response too early and one in time; and one whose run has ended. -/
theorem witness_ObservationIsAllResponses :
    HostEvent.reset ∉ (withInbox [.take, .command 0x7000, .take, .command 0x8000]).inbox ∧
    ∃ o, (withInbox [.command 0x7000, .take]).observe = .next o ∧ o.final.runEnded :=
  ⟨by decide, _, rfl, rfl, rfl⟩

/-- A run that ends, the observation being its one response: 70_reset_and_hazards.md R238. -/
theorem witness_TakingTheResponsesEndsTheRun :
    ∃ o, (withInbox ([.command 0x7000] ++ List.replicate 1 .take)).observe = .next o ∧ o.final.runEnded ∧
      o.responses = [0x481000000#36] :=
  ⟨_, rfl, ⟨rfl, rfl⟩, rfl⟩

/-- 70_reset_and_hazards.md R238: a run can end with a line in progress and with `ill` set. -/
theorem test_end_of_run_promises_little :
    ∃ o, (withInbox [.command 0x0024, .command 0xF000, .take]).observe = .next o ∧ o.final.runEnded ∧
      o.responses = [0xF0000F000#36] ∧ o.final.line.ph = .body ∧ o.final.runFaulted :=
  ⟨_, rfl, ⟨rfl, rfl⟩, rfl, rfl, rfl⟩

end Sys2Proof.Tests
end

section
/-! Every step answers a next state (00_scope.md R9, 60_exceptions.md R206): the totality of an accepted word, and
of an act of the host. -/

namespace Sys2Proof.Machine

/-- An accepted word answers a next state, whether or not it spells a command. -/
theorem accept_next (cw : CommandWord) (s : State) : ∃ t, accept cw s = .next t := by
  obtain ⟨t, ws, h⟩ := accept_appends cw s
  exact ⟨_, h s.rsp s.inbox⟩

theorem onEvent_next (e : HostEvent) (s : State) : ∃ t, onEvent e s = .next t := by
  cases e with
  | command cw => exact accept_next cw s
  | reset => exact ⟨s.resetEdge, rfl⟩
  | take => exact ⟨s.takeResponse, rfl⟩

/-- Settles O7, by the next event of the inbox: without one the block idles, and every event is answered. -/
theorem stepAlwaysGoesOn : Obligations.StepAlwaysGoesOn := by
  intro s
  cases h : s.inbox with
  | nil => exact ⟨s, step_nil h⟩
  | cons e rest =>
    rw [step_cons h]
    exact onEvent_next e { s with inbox := rest }

end Sys2Proof.Machine
end

section
/-! What each command and each act of the host can do to the state, said once as a relation with one constructor per
outcome: the proofs about what changes and what stays are case splits on it. -/

namespace Sys2Proof.Machine

/-- The responses of a query of the unpacker, for the buffer it asks (41_unpacker.md R151, R153, R155). -/
def queryReport (i : Instr) (u : Unpacker) : Option (List Response) :=
  match i with
  | .ucnt => some [u.header]
  | .uget k => some [u.answer k]
  | .urun => some u.decoded
  | _ => none

/-- The outcomes of a command: the state it was executed in, the command, the state it answers. -/
inductive CommandEffect (s : State) : Instr → State → Prop
  | fsym (c : Symbol) : CommandEffect s (.fsym c) { s with line := s.line.push c }
  | feol : CommandEffect s .feol (({ s with
      line := .start
      errcnt := countFailure s.line.result.status s.errcnt
      flast := s.line.result.summary }).emit
        [.fres s.line.result, .fpos s.line.result.start s.line.result.len,
         .fcnt (countFailure s.line.result.status s.errcnt)])
  | ubegin (m : BitVec 2) (sch : Scheme) : sch.bits = m → CommandEffect s (.ubegin m) { s with unp := s.unp.begin sch }
  | noScheme : CommandEffect s (.ubegin 3#2) (s.illegalCommand 0x4003#16)
  | upush (b : Byte) : CommandEffect s (.upush b) { s with unp := s.unp.push b }
  | ufail : CommandEffect s .ufail { s with unp := { s.unp with bad := true } }
  | query (i : Instr) (rs : List Response) : queryReport i s.unp = some rs → CommandEffect s i (s.emit rs)
  | rdsr (r : BitVec 2) : CommandEffect s (.rdsr r) (s.emit [.sreg (s.statusReg r)])

/-- Executing a command has one of these outcomes. -/
theorem commandEffect_of_exec {i : Instr} {s t : State} (h : exec i s = .next t) : CommandEffect s i t := by
  cases i with
  | fsym c => cases h; exact .fsym c
  | feol => cases h; exact .feol
  | ubegin m =>
    rcases exec_ubegin_cases s m with ⟨sch, hm, e⟩ | ⟨rfl, e⟩
    · cases e.symm.trans h; exact .ubegin m sch hm
    · cases h; exact .noScheme
  | upush b => cases h; exact .upush b
  | ufail => cases h; exact .ufail
  | ucnt => cases h; exact .query _ _ rfl
  | uget k => cases h; exact .query _ _ rfl
  | urun => cases h; exact .query _ _ rfl
  | rdsr r => cases h; exact .rdsr r

theorem exec_ubegin_bits (sch : Scheme) (s : State) :
    exec (.ubegin sch.bits) s = .next { s with unp := s.unp.begin sch } := by
  cases sch <;> rfl

theorem exec_of_queryReport {i : Instr} {s : State} {rs : List Response} (h : queryReport i s.unp = some rs) :
    exec i s = .next (s.emit rs) := by
  cases i <;> cases h <;> rfl

/-- The outcome of a command determines what executing it answers. -/
theorem exec_of_commandEffect {i : Instr} {s t : State} (h : CommandEffect s i t) : exec i s = .next t := by
  cases h with
  | fsym c => rfl
  | feol => rfl
  | ubegin m sch hm => subst hm; exact exec_ubegin_bits sch s
  | noScheme => rfl
  | upush b => rfl
  | ufail => rfl
  | query i rs hr => exact exec_of_queryReport hr
  | rdsr r => rfl

/-- What a step can do, by the event that happens in it. -/
inductive StepEffect (s : State) : State → Prop
  | idle : s.inbox = [] → StepEffect s s
  | command {cw : CommandWord} {rest : List HostEvent} {i : Instr} {t : State} :
      s.inbox = .command cw :: rest → decode cw = .ok i → CommandEffect { s with inbox := rest } i t → StepEffect s t
  | illegal {cw : CommandWord} {rest : List HostEvent} {e : IllegalWord} :
      s.inbox = .command cw :: rest → decode cw = .error e →
      StepEffect s (State.illegalCommand { s with inbox := rest } cw)
  | reset {rest : List HostEvent} :
      s.inbox = .reset :: rest → StepEffect s (State.resetEdge { s with inbox := rest })
  | take {rest : List HostEvent} :
      s.inbox = .take :: rest → StepEffect s (State.takeResponse { s with inbox := rest })

theorem stepEffect_of_step {s t : State} (h : step s = .next t) : StepEffect s t := by
  cases hi : s.inbox with
  | nil => rw [step_nil hi] at h; cases h; exact .idle hi
  | cons e rest =>
    rw [step_cons hi] at h
    cases e with
    | command cw =>
      cases hd : decode cw with
      | ok i => exact .command hi hd (commandEffect_of_exec ((accept_of_ok _ hd).symm.trans h))
      | error x => cases (accept_of_error _ hd).symm.trans h; exact .illegal hi hd
    | reset => cases h; exact .reset hi
    | take => cases h; exact .take hi

/-- Every query is a command of the unpacker, and none of the framer. -/
theorem unit_of_queryReport {i : Instr} {u : Unpacker} {rs : List Response} (h : queryReport i u = some rs) :
    isUnpacker i = true ∧ isFramer i = false := by
  cases i
  case ucnt | uget | urun => exact ⟨rfl, rfl⟩
  all_goals cases h

/-- A sequence that answers a state begins with a command that does. -/
theorem execAll_cons_eq_next {i : Instr} {is : List Instr} {s u : State} (h : execAll (i :: is) s = .next u) :
    ∃ t, exec i s = .next t ∧ execAll is t = .next u := by
  obtain ⟨t, ws, e⟩ := exec_appends i s
  have e := e s.rsp s.inbox
  exact ⟨_, e, (execAll_cons_of_next e).symm.trans h⟩

/-- What every command of a sequence keeps, the sequence keeps. -/
theorem execAll_keeps {P : State → Prop} {prog : List Instr}
    (keep : ∀ {i s t}, i ∈ prog → CommandEffect s i t → P s → P t) {s t : State} (hs : P s)
    (h : execAll prog s = .next t) : P t := by
  induction prog generalizing s with
  | nil => cases h; exact hs
  | cons i is ih =>
    obtain ⟨m, hm, h⟩ := execAll_cons_eq_next h
    exact ih (fun hi => keep (List.mem_cons_of_mem _ hi)) (keep List.mem_cons_self (commandEffect_of_exec hm) hs) h

end Sys2Proof.Machine
end

section
/-! What the decoder's successes say of the word. -/

namespace Sys2Proof

/-- A word cut in two parts, put together again. -/
theorem append_of_parts (m n : Nat) (x : BitVec (m + n)) : x.extractLsb' n m ++ x.extractLsb' 0 n = x := by
  rw [BitVec.extractLsb'_append_extractLsb'_eq_extractLsb' (Nat.zero_add n).symm, BitVec.extractLsb'_eq_self]

/-- A word is its opcode and its operand field (30_encoding.md R72). -/
theorem opOf_append_argOf (cw : CommandWord) : opOf cw ++ argOf cw = cw := append_of_parts 4 12 cw

/-- A format S word that spells a command is the word of its opcode with the value it names. -/
theorem of_decodeS_eq_ok {cw : CommandWord} {k : BitVec 8 → Instr} {i : Instr} (h : decodeS cw k = .ok i) :
    ∃ v, argOf cw = 0#4 ++ v ∧ k v = i := by
  unfold decodeS at h
  split at h
  · next hz =>
    cases h
    exact ⟨_, hz ▸ (append_of_parts 4 8 (argOf cw)).symm, rfl⟩
  · cases h

theorem of_decodeZ_eq_ok {cw : CommandWord} {i j : Instr} (h : decodeZ cw j = .ok i) : argOf cw = 0#12 ∧ j = i := by
  unfold decodeZ at h
  split at h
  · next hz => cases h; exact ⟨hz, rfl⟩
  · cases h

/-- The operand field of a format M word whose must-be-zero bits are zero. -/
theorem argOf_eq_of_selectorMbz {cw : CommandWord} (h : selectorMbz cw = 0#10) : argOf cw = 0#10 ++ selectorOf cw := by
  rw [← h]
  exact (append_of_parts 10 2 (argOf cw)).symm

/-- A word that decodes has the opcode and the operand field of its command, and that command is well formed
(30_encoding.md R73). -/
theorem fields_of_decode_eq_ok {cw : CommandWord} {i : Instr} (h : decode cw = .ok i) :
    opOf cw = i.op ∧ argOf cw = i.arg ∧ i.wf = true := by
  unfold decode at h
  split at h
  case h_1 hop | h_4 hop =>
    obtain ⟨v, hv, rfl⟩ := of_decodeS_eq_ok h
    exact ⟨BitVec.eq_of_toNat_eq hop, hv, rfl⟩
  case h_2 hop | h_5 hop | h_6 hop | h_8 hop =>
    obtain ⟨hv, rfl⟩ := of_decodeZ_eq_ok h
    exact ⟨BitVec.eq_of_toNat_eq hop, hv, rfl⟩
  case h_3 hop =>
    split at h
    · next hm =>
      obtain ⟨hz, hne⟩ := hm
      cases h
      exact ⟨BitVec.eq_of_toNat_eq hop, argOf_eq_of_selectorMbz hz, bne_iff_ne.2 hne⟩
    · cases h
  case h_7 hop => cases h; exact ⟨BitVec.eq_of_toNat_eq hop, rfl, rfl⟩
  case h_9 hop =>
    split at h
    · next hz => cases h; exact ⟨BitVec.eq_of_toNat_eq hop, argOf_eq_of_selectorMbz hz, rfl⟩
    · cases h
  case h_10 => cases h

theorem encode_of_decode_eq_ok {cw : CommandWord} {i : Instr} (h : decode cw = .ok i) : encode i = cw := by
  obtain ⟨hop, harg, -⟩ := fields_of_decode_eq_ok h
  rw [encode, ← hop, ← harg, opOf_append_argOf]

theorem wf_of_decode_eq_ok {cw : CommandWord} {i : Instr} (h : decode cw = .ok i) : i.wf = true := by
  obtain ⟨-, -, hwf⟩ := fields_of_decode_eq_ok h
  exact hwf

end Sys2Proof
end

section
/-! The fields of a response word and the kinds each command emits (30_encoding.md R78). -/

namespace Sys2Proof.Machine

@[simp] theorem Response.word_kind (r : Response) : r.word.extractLsb' 32 4 = r.kind :=
  BitVec.extractLsb'_append_eq_left

/-- A field of the lower 32 bits of a word is that field of the response's data. -/
theorem Response.word_field (r : Response) {start len : Nat} (h : start + len ≤ 32) :
    r.word.extractLsb' start len = r.data.extractLsb' start len :=
  BitVec.extractLsb'_append_eq_of_add_le h

theorem Response.kind_mem_legalKinds (r : Response) : r.kind ∈ legalKinds := by
  cases r <;> simp [Response.kind, legalKinds]

/-- The kinds the unpacker's queries answer with: `UHDR`, `USMP`, `UNONE`. -/
theorem kind_of_queryReport {i : Instr} {u : Unpacker} {rs : List Response} (h : queryReport i u = some rs) :
    ∀ r ∈ rs, r.kind = 0x4#4 ∨ r.kind = 0x5#4 ∨ r.kind = 0x6#4 := by
  intro r hr
  cases i <;> cases h
  case ucnt => exact .inl (List.mem_singleton.1 hr ▸ rfl)
  case uget k =>
    rw [List.mem_singleton.1 hr]
    unfold Unpacker.answer
    split
    · exact .inr (.inr rfl)
    · split
      · exact .inr (.inr rfl)
      · exact .inr (.inl rfl)
  case urun =>
    rcases List.mem_cons.1 hr with rfl | hr
    · exact .inl rfl
    · obtain ⟨n, -, rfl⟩ := List.mem_map.1 hr
      exact .inr (.inl rfl)

@[simp] theorem framerWords_append (ws vs : List ResponseWord) :
    framerWords (ws ++ vs) = framerWords ws ++ framerWords vs := List.filter_append ws vs

@[simp] theorem unpackerWords_append (ws vs : List ResponseWord) :
    unpackerWords (ws ++ vs) = unpackerWords ws ++ unpackerWords vs := List.filter_append ws vs

@[simp] theorem framerWords_nil : framerWords [] = [] := rfl

@[simp] theorem unpackerWords_nil : unpackerWords [] = [] := rfl

/-- The word of a response is the framer's by its kind. -/
@[simp] theorem framerWords_word_cons (r : Response) (ws : List ResponseWord) :
    framerWords (r.word :: ws) =
      if r.kind ∈ [0x1#4, 0x2#4, 0x3#4] then r.word :: framerWords ws else framerWords ws := by
  simp [framerWords, List.filter_cons]

/-- The word of a response is the unpacker's by its kind. -/
@[simp] theorem unpackerWords_word_cons (r : Response) (ws : List ResponseWord) :
    unpackerWords (r.word :: ws) =
      if r.kind ∈ [0x4#4, 0x5#4, 0x6#4] then r.word :: unpackerWords ws else unpackerWords ws := by
  simp [unpackerWords, List.filter_cons]

/-- A query emits no word of the framer. -/
theorem framerWords_queryReport {i : Instr} {u : Unpacker} {rs : List Response} (h : queryReport i u = some rs) :
    framerWords (rs.map Response.word) = [] := by
  refine List.filter_eq_nil_iff.2 fun w hw => ?_
  obtain ⟨r, hr, rfl⟩ := List.mem_map.1 hw
  rcases kind_of_queryReport h r hr with e | e | e <;> simp [e]

end Sys2Proof.Machine
end

section
/-! The invariant of the block: its base case, and that every step keeps it (10_state.md R24, R26, R29, 20_memory.md R50,
30_encoding.md R78). -/

namespace Sys2Proof.Machine

theorem LineRegs.start_inv : LineRegs.start.Inv where
  seek _ := ⟨rfl, rfl, rfl, rfl⟩
  dollar h := absurd rfl h
  star h := nomatch h
  overlong h := nomatch h
  body h := nomatch h

/-- Below its greatest value `pos` counts up without wrapping. -/
theorem pos_lt_add_one {pos : BitVec 16} (h : pos ≠ Config.posMax) : pos < pos + 1#16 := by
  have : pos.toNat ≠ 65535 := fun e => h (BitVec.eq_of_toNat_eq e)
  bv_omega

theorem LineRegs.Inv.pushStar {r : LineRegs} (hr : r.Inv) (hovf : ¬r.ovf = true) (hpos : r.pos ≠ Config.posMax)
    (hph : r.ph ≠ .seek) : r.pushStar.Inv where
  seek h := nomatch h
  dollar _ := BitVec.lt_trans (hr.dollar hph) (pos_lt_add_one hpos)
  star _ := ⟨hr.dollar hph, pos_lt_add_one hpos⟩
  overlong h := absurd h hovf
  body h := nomatch h

/-- What a symbol of the tail writes: the position goes up by one, the phase and the two marks stay. -/
theorem LineRegs.pushTail_frame (r : LineRegs) (c : Symbol) :
    (r.pushTail c).ph = r.ph ∧ (r.pushTail c).pos = r.pos + 1#16 ∧ (r.pushTail c).dpos = r.dpos ∧
      (r.pushTail c).spos = r.spos ∧ (r.pushTail c).ovf = r.ovf := by
  unfold LineRegs.pushTail
  split <;> exact ⟨rfl, rfl, rfl, rfl, rfl⟩

theorem LineRegs.Inv.pushTail {r : LineRegs} (hr : r.Inv) (c : Symbol) (hovf : ¬r.ovf = true)
    (hpos : r.pos ≠ Config.posMax) (hph : r.ph = .tail) : (r.pushTail c).Inv := by
  obtain ⟨eph, epos, edpos, espos, eovf⟩ := r.pushTail_frame c
  obtain ⟨hds, hsp⟩ := hr.star hph
  have hsp' : r.spos < r.pos + 1#16 := BitVec.lt_trans hsp (pos_lt_add_one hpos)
  constructor <;> simp only [eph, epos, edpos, espos, eovf, hph]
  case dollar => exact fun _ => BitVec.lt_trans hds hsp'
  case star => exact fun _ => ⟨hds, hsp'⟩
  case overlong => exact fun h => absurd h hovf
  case seek | body => exact nofun

/-- A push keeps the invariant of the line registers, branch by branch of 40_framer.md R101. -/
theorem LineRegs.Inv.push {r : LineRegs} (hr : r.Inv) (c : Symbol) : (r.push c).Inv := by
  unfold LineRegs.push
  split
  · exact hr
  next hovf =>
  split
  · next hpos => exact ⟨hr.seek, hr.dollar, hr.star, fun _ => hpos, hr.body⟩
  next hpos =>
  have hlt := pos_lt_add_one hpos
  split
  · next hph =>
    split
    · obtain ⟨-, -, htcnt, htail⟩ := hr.seek hph
      exact ⟨nofun, fun _ => hlt, nofun, fun h => absurd h hovf, fun _ => ⟨htcnt, htail⟩⟩
    · exact ⟨hr.seek, fun h => absurd hph h, fun h => by simp [hph] at h, fun h => absurd h hovf, hr.body⟩
  · next hph =>
    have hseek : r.ph ≠ .seek := by simp [hph]
    split
    · exact hr.pushStar hovf hpos hseek
    · exact ⟨fun h => absurd h hseek, fun h => BitVec.lt_trans (hr.dollar h) hlt, fun h => by simp [hph] at h,
        fun h => absurd h hovf, hr.body⟩
  · next hph =>
    split
    · exact hr.pushStar hovf hpos (by simp [hph])
    · exact hr.pushTail c hovf hpos hph

theorem LineResult.failed_legal {c : Cause} (h : c ≠ .none) : (LineResult.failed c).legal := ⟨h, rfl, rfl, rfl, rfl⟩

theorem LineResult.framed_legal (computed rx : BitVec 8) (start len : BitVec 16) :
    (LineResult.framed computed rx start len).legal := by
  by_cases h : rx = computed <;> simp [LineResult.legal, LineResult.framed, h]

/-- The classification reports only results of the tables of 30_encoding.md R79 and R80. -/
theorem LineRegs.result_legal (r : LineRegs) : r.result.legal := by
  unfold LineRegs.result
  split; · exact LineResult.failed_legal nofun
  split; · exact LineResult.failed_legal nofun
  split; · exact LineResult.failed_legal nofun
  split; · exact LineResult.failed_legal nofun
  split; · exact LineResult.failed_legal nofun
  split; · exact LineResult.failed_legal nofun
  exact LineResult.framed_legal _ _ _ _

theorem Unpacker.push_rb_wf {u : Unpacker} (h : u.rb.wf) (b : Byte) : (u.push b).rb.wf := by
  rw [Unpacker.push_rb]
  split
  · next hL => exact Memory.write_wf h hL b
  · exact h

/-- Emitted words have a kind of the response table. -/
theorem State.emit_inv {s : State} (h : s.Inv) (rs : List Response) : (s.emit rs).Inv where
  line := h.line
  flast := h.flast
  buffer := h.buffer
  offender := h.offender
  kinds w hw := by
    rcases List.mem_append.1 hw with hw | hw
    · exact h.kinds w hw
    · obtain ⟨r, -, rfl⟩ := List.mem_map.1 hw
      exact r.word_kind ▸ r.kind_mem_legalKinds

theorem State.illegalCommand_inv {s : State} (h : s.Inv) (cw : CommandWord) : (s.illegalCommand cw).Inv := by
  refine State.emit_inv ?_ _
  exact ⟨h.line, h.flast, h.buffer, nofun, h.kinds⟩

/-- The invariant does not speak of what the host will do. -/
theorem State.inv_inbox {s : State} (h : s.Inv) (es : List HostEvent) : State.Inv { s with inbox := es } :=
  ⟨h.line, h.flast, h.buffer, h.offender, h.kinds⟩

theorem State.reset_inv : State.reset.Inv where
  line := LineRegs.start_inv
  flast := .inl rfl
  buffer := by decide
  offender _ := rfl
  kinds := nofun

theorem CommandEffect.inv {i : Instr} {s t : State} (h : CommandEffect s i t) (hs : s.Inv) : t.Inv := by
  cases h with
  | fsym c => exact ⟨hs.line.push c, hs.flast, hs.buffer, hs.offender, hs.kinds⟩
  | feol =>
    refine State.emit_inv ?_ _
    exact ⟨LineRegs.start_inv, .inr ⟨_, s.line.result_legal, rfl⟩, hs.buffer, hs.offender, hs.kinds⟩
  | ubegin m sch hm => exact ⟨hs.line, hs.flast, hs.buffer, hs.offender, hs.kinds⟩
  | noScheme => exact State.illegalCommand_inv hs _
  | upush b => exact ⟨hs.line, hs.flast, Unpacker.push_rb_wf hs.buffer b, hs.offender, hs.kinds⟩
  | ufail => exact ⟨hs.line, hs.flast, hs.buffer, hs.offender, hs.kinds⟩
  | query i rs hr => exact State.emit_inv hs rs
  | rdsr r => exact State.emit_inv hs _

theorem StepEffect.inv {s t : State} (h : StepEffect s t) (hs : s.Inv) : t.Inv := by
  cases h with
  | idle => exact hs
  | command _ _ hi => exact hi.inv (State.inv_inbox hs _)
  | illegal => exact State.illegalCommand_inv (State.inv_inbox hs _) _
  | reset => exact State.inv_inbox State.reset_inv _
  | take => exact ⟨hs.line, hs.flast, hs.buffer, hs.offender, fun w hw => hs.kinds w (List.mem_of_mem_tail hw)⟩

/-- Settles O14, by the outcomes of a step: each command and each other event keeps every part of the invariant. -/
theorem stepKeepsInvariant : Obligations.StepKeepsInvariant :=
  fun _ _ hs h => (stepEffect_of_step h).inv hs

/-- Settles O13, part by part of the invariant. -/
theorem invariantHoldsAtReset : Obligations.InvariantHoldsAtReset := State.reset_inv

end Sys2Proof.Machine
end

section
/-! Noninterference of the two units (10_state.md R31): a run restricted to the commands of one unit keeps a relation with
the whole run, by one simulation argument over the sequence of commands. -/

namespace Sys2Proof.Machine

/-- A relation that the commands of a class keep together, and the other commands keep on the left alone, relates a whole
run to the run of the class. -/
theorem execAll_filter {R : State → State → Prop} {p : Instr → Bool}
    (both : ∀ {i s s' t}, p i = true → R s s' → CommandEffect s i t → ∃ t', exec i s' = .next t' ∧ R t t')
    (left : ∀ {i s s' t}, p i = false → R s s' → CommandEffect s i t → R t s')
    {prog : List Instr} {s s' t : State} (hR : R s s') (h : execAll prog s = .next t) :
    ∃ t', execAll (prog.filter p) s' = .next t' ∧ R t t' := by
  induction prog generalizing s s' with
  | nil => cases h; exact ⟨s', rfl, hR⟩
  | cons i is ih =>
    obtain ⟨m, hm, h⟩ := execAll_cons_eq_next h
    have hm := commandEffect_of_exec hm
    cases hp : p i with
    | true =>
      obtain ⟨m', hm', hR'⟩ := both hp hR hm
      obtain ⟨t', ht', hR''⟩ := ih hR' h
      exact ⟨t', by rw [List.filter_cons_of_pos hp, execAll_cons_of_next hm', ht'], hR''⟩
    | false =>
      rw [List.filter_cons_of_neg (Bool.eq_false_iff.1 hp)]
      exact ih (left hp hR hm) h

/-- The states agree on the framer's registers and words. -/
def FramerAgrees (s t : State) : Prop := s.sameFramer t ∧ framerWords s.rsp = framerWords t.rsp

/-- The states agree on the unpacker's registers, its buffer and its words. -/
def UnpackerAgrees (s t : State) : Prop := s.unp = t.unp ∧ unpackerWords s.rsp = unpackerWords t.rsp

theorem FramerAgrees.both {i : Instr} {s s' t : State} (hi : isFramer i = true) (h : FramerAgrees s s')
    (ht : CommandEffect s i t) : ∃ t', exec i s' = .next t' ∧ FramerAgrees t t' := by
  obtain ⟨⟨hl, he, hf⟩, hw⟩ := h
  cases ht with
  | fsym c => exact ⟨_, exec_fsym s' c, ⟨congrArg (LineRegs.push · c) hl, he, hf⟩, hw⟩
  | feol =>
    refine ⟨_, exec_feol s', ⟨rfl, ?_, ?_⟩, ?_⟩
    · simp [hl, he]
    · simp [hl]
    · simp [hl, he, hw]
  | ubegin | noScheme | upush | ufail | rdsr => cases hi
  | query i rs hq => rw [(unit_of_queryReport hq).2] at hi; cases hi

/-- A command that is not the framer's leaves the framer's registers and emits no word of the framer. -/
theorem FramerAgrees.left {i : Instr} {s s' t : State} (hi : isFramer i = false) (h : FramerAgrees s s')
    (ht : CommandEffect s i t) : FramerAgrees t s' := by
  obtain ⟨hr, hw⟩ := h
  cases ht with
  | fsym | feol => cases hi
  | ubegin | upush | ufail => exact ⟨hr, hw⟩
  | noScheme => exact ⟨hr, by simp [hw, Response.kind]⟩
  | query i rs hq => exact ⟨hr, by simp [hw, framerWords_queryReport hq]⟩
  | rdsr r => exact ⟨hr, by simp [hw, Response.kind]⟩

theorem UnpackerAgrees.both {i : Instr} {s s' t : State} (hi : isUnpacker i = true) (h : UnpackerAgrees s s')
    (ht : CommandEffect s i t) : ∃ t', exec i s' = .next t' ∧ UnpackerAgrees t t' := by
  obtain ⟨hu, hw⟩ := h
  cases ht with
  | fsym | feol | rdsr => cases hi
  | ubegin m sch hm => subst hm; exact ⟨_, exec_ubegin_bits sch s', by simp [UnpackerAgrees, hu, hw]⟩
  | noScheme => exact ⟨_, exec_ubegin_three s', hu, by simp [hw]⟩
  | upush b => exact ⟨_, exec_upush s' b, congrArg (Unpacker.push · b) hu, hw⟩
  | ufail => exact ⟨_, exec_ufail s', congrArg (fun u => { u with bad := true }) hu, hw⟩
  | query i rs hq => exact ⟨_, exec_of_queryReport (hu ▸ hq), hu, by simp [hw]⟩

/-- A command that is not the unpacker's leaves the unpacker and emits no word of the unpacker. -/
theorem UnpackerAgrees.left {i : Instr} {s s' t : State} (hi : isUnpacker i = false) (h : UnpackerAgrees s s')
    (ht : CommandEffect s i t) : UnpackerAgrees t s' := by
  obtain ⟨hu, hw⟩ := h
  cases ht with
  | fsym => exact ⟨hu, hw⟩
  | feol => exact ⟨hu, by simp [hw, Response.kind]⟩
  | ubegin | noScheme | upush | ufail => cases hi
  | query i rs hq => rw [(unit_of_queryReport hq).1] at hi; cases hi
  | rdsr r => exact ⟨hu, by simp [hw, Response.kind]⟩

/-- Settles O50, by simulating the whole run with the run of each unit's commands. -/
theorem unitsAreIndependent : Obligations.UnitsAreIndependent := by
  intro prog s t _ h
  obtain ⟨f, hf, hfr, hfw⟩ := execAll_filter FramerAgrees.both FramerAgrees.left ⟨⟨rfl, rfl, rfl⟩, rfl⟩ h
  obtain ⟨u, hu, huu, huw⟩ := execAll_filter UnpackerAgrees.both UnpackerAgrees.left ⟨rfl, rfl⟩ h
  exact ⟨f, u, hf, hu, hfr, hfw, huu, huw⟩

end Sys2Proof.Machine
end

section
/-! What a command changes and what it leaves, unit by unit and register by register (10_state.md R25, R27, R29, R31,
20_memory.md R51). -/

namespace Sys2Proof.Machine

variable {i : Instr} {s t : State}

/-- A command changes no word emitted before (20_memory.md R65). -/
theorem CommandEffect.rsp (h : CommandEffect s i t) : s.rsp <+: t.rsp := by
  cases h with
  | fsym | ubegin | upush | ufail => exact ⟨[], List.append_nil _⟩
  | feol | noScheme | query | rdsr => exact ⟨_, rfl⟩

theorem CommandEffect.inbox (h : CommandEffect s i t) : t.inbox = s.inbox := exec_inbox (exec_of_commandEffect h)

/-- Only `FEOL` counts (40_framer.md R107). -/
theorem CommandEffect.errcnt (h : CommandEffect s i t) :
    t.errcnt = s.errcnt ∨ i = .feol ∧ t.errcnt = countFailure s.line.result.status s.errcnt := by
  cases h with
  | feol => exact .inr ⟨rfl, rfl⟩
  | fsym | ubegin | noScheme | upush | ufail | query | rdsr => exact .inl rfl

/-- A command that a word can spell leaves the record of the first offender. -/
theorem CommandEffect.offender (h : CommandEffect s i t) (hi : i.wf = true) : t.ill = s.ill ∧ t.illcw = s.illcw := by
  cases h with
  | noScheme => cases hi
  | fsym | feol | ubegin | upush | ufail | query | rdsr => exact ⟨rfl, rfl⟩

/-- Only three commands write the unpacker (10_state.md R27). -/
theorem CommandEffect.unp (h : CommandEffect s i t) :
    t.unp = s.unp ∨ (∃ m sch, i = .ubegin m ∧ t.unp = s.unp.begin sch) ∨ (∃ b, i = .upush b ∧ t.unp = s.unp.push b) ∨
      i = .ufail ∧ t.unp = { s.unp with bad := true } := by
  cases h with
  | ubegin m sch => exact .inr (.inl ⟨m, sch, rfl, rfl⟩)
  | upush b => exact .inr (.inr (.inl ⟨b, rfl, rfl⟩))
  | ufail => exact .inr (.inr (.inr ⟨rfl, rfl⟩))
  | fsym | feol | noScheme | query | rdsr => exact .inl rfl

/-- A push stores a byte and counts it, or finds the buffer full and marks it (41_unpacker.md R142). -/
theorem Unpacker.push_cases (u : Unpacker) (b : Byte) :
    (∃ h : u.L.val < 4096,
      u.push b = { u with rb := u.rb.write u.L.val b, L := ⟨u.L.val + 1, Nat.succ_lt_succ h⟩ }) ∨
    u.L.val = 4096 ∧ u.push b = { u with uovf := true } := by
  by_cases h : u.L.val < 4096
  · exact .inl ⟨h, u.push_of_lt b h⟩
  · have hL : u.L.val = 4096 := by omega
    exact .inr ⟨hL, u.push_of_full b hL⟩

/-- A push leaves every byte but the one it stores. -/
theorem Unpacker.push_read (u : Unpacker) (b : Byte) {a : Nat} (h : u.L.val < 4096 → a ≠ u.L.val) :
    (u.push b).rb.read a = u.rb.read a := by
  rcases u.push_cases b with ⟨hL, e⟩ | ⟨-, e⟩ <;> rw [e]
  exact Memory.read_write_ne _ b (h hL)

theorem Unpacker.push_valid {u : Unpacker} (h : u.valid = false) (b : Byte) : (u.push b).valid = false := by
  rcases u.push_cases b with ⟨_, e⟩ | ⟨_, e⟩
  · rw [e]; exact h
  · simp [e, Unpacker.valid]

/-- A command that is no `UBEGIN` does not give a buffer its value back (10_state.md R27). -/
theorem CommandEffect.valid (h : CommandEffect s i t) (hi : ∀ m, i ≠ .ubegin m) (hs : s.unp.valid = false) :
    t.unp.valid = false := by
  rcases h.unp with e | ⟨m, sch, e, -⟩ | ⟨b, -, e⟩ | ⟨-, e⟩
  · rw [e, hs]
  · exact absurd e (hi m)
  · rw [e]; exact Unpacker.push_valid hs b
  · simp [e, Unpacker.valid]

/-- A count goes up by one, for a checksum failure below the greatest count, or stays (40_framer.md R107). -/
theorem countFailure_cases (st : Status) (n : BitVec 32) :
    countFailure st n = n ∨ st = .checksum ∧ (countFailure st n).toNat = n.toNat + 1 := by
  unfold countFailure
  split
  · next h =>
    obtain ⟨hst, hn⟩ := h
    have : n.toNat ≠ 4294967295 := fun e => hn (BitVec.eq_of_toNat_eq e)
    exact .inr ⟨hst, by bv_omega⟩
  · exact .inl rfl

/-- What a step but a reset edge does to the counter. -/
theorem StepEffect.errcnt (h : StepEffect s t) (hr : s.inbox.head? ≠ some .reset) :
    t.errcnt = s.errcnt ∨ s.inbox.head? = some (.command 0x1000#16) ∧
      t.errcnt = countFailure s.line.result.status s.errcnt := by
  cases h with
  | idle => exact .inl rfl
  | command hin hd hc =>
    rcases hc.errcnt with e | ⟨rfl, e⟩
    · exact .inl e
    · exact .inr ⟨by rw [hin, ← encode_of_decode_eq_ok hd]; rfl, e⟩
  | illegal => exact .inl rfl
  | reset hin => exact absurd (congrArg List.head? hin) hr
  | take => exact .inl rfl

/-- Settles O25: a step leaves the counter or is an `FEOL`, which counts a checksum failure. -/
theorem errcntIsMonotone : Obligations.ErrcntIsMonotone := by
  intro s t h hr
  rcases (stepEffect_of_step h).errcnt hr with e | ⟨hin, e⟩
  · exact ⟨by rw [e], fun hne => absurd e hne⟩
  · rcases countFailure_cases s.line.result.status s.errcnt with hc | ⟨hst, hc⟩
    · exact ⟨by rw [e, hc], fun hne => absurd (e.trans hc) hne⟩
    · rw [← e] at hc
      exact ⟨by omega, fun _ => ⟨hin, hst, hc⟩⟩

/-- What a step but a reset edge does to the record of the first offender: nothing, or it is a word that spells no command
(30_encoding.md R86). -/
theorem StepEffect.offender (h : StepEffect s t) (hr : s.inbox.head? ≠ some .reset) :
    (t.ill = s.ill ∧ t.illcw = s.illcw) ∨
      ∃ cw, s.inbox.head? = some (.command cw) ∧ (∀ i, decode cw ≠ .ok i) ∧ t.ill = true ∧
        t.illcw = if s.ill then s.illcw else cw := by
  cases h with
  | idle => exact .inl ⟨rfl, rfl⟩
  | command _ hd hc => exact .inl (hc.offender (wf_of_decode_eq_ok hd))
  | @illegal cw _ _ hin hd => exact .inr ⟨cw, by rw [hin]; rfl, fun i hi => (nomatch hd.symm.trans hi), rfl, rfl⟩
  | reset hin => exact absurd (congrArg List.head? hin) hr
  | take => exact .inl ⟨rfl, rfl⟩

/-- Settles O49: a step leaves the record or is an illegal word, which writes it only while `ill` is clear. -/
theorem firstOffenderIsKept : Obligations.FirstOffenderIsKept := by
  intro s t h hr
  rcases (stepEffect_of_step h).offender hr with ⟨hill, hcw⟩ | ⟨cw, hin, hd, hill, hcw⟩
  · exact ⟨fun hs => ⟨hill.trans hs, hcw⟩, fun hs ht => (nomatch ht.symm.trans (hill.trans hs)), fun _ _ => hcw⟩
  · exact ⟨fun hs => ⟨hill, by simp [hcw, hs]⟩, fun hs _ => ⟨cw, hin, hd, by simp [hcw, hs]⟩,
      fun _ ht => nomatch hill.symm.trans ht⟩

/-- Settles O43, by the writers of the unpacker, a push split at the full buffer. -/
theorem unpackerRegisterWriters : Obligations.UnpackerRegisterWriters := by
  intro i s t h
  rcases (commandEffect_of_exec h).unp with e | ⟨m, sch, rfl, e⟩ | ⟨b, rfl, e⟩ | ⟨rfl, e⟩
  · simp [e]
  · simp [e]
  · rcases s.unp.push_cases b with ⟨hL, e'⟩ | ⟨hL, e'⟩
    · simp [e, e', hL]
    · simp [e, e', hL]
  · simp [e]

/-- A command leaves every byte of the buffer but the one a push stores (20_memory.md R51). -/
theorem CommandEffect.read (h : CommandEffect s i t) {a : Nat}
    (ha : ∀ b, i = .upush b → s.unp.L.val < 4096 → a ≠ s.unp.L.val) : t.unp.rb.read a = s.unp.rb.read a := by
  rcases h.unp with e | ⟨m, sch, -, e⟩ | ⟨b, hb, e⟩ | ⟨-, e⟩
  · rw [e]
  · rw [e, Unpacker.begin_rb]
  · rw [e]; exact s.unp.push_read b (ha b hb)
  · rw [e]

/-- Settles O44, by the outcomes of the unpacker's commands. -/
theorem unpackerCommandsFrame : Obligations.UnpackerCommandsFrame := by
  intro i s t hi hwf h
  have h := commandEffect_of_exec h
  obtain ⟨hill, hcw⟩ := h.offender hwf
  have hframer : t.line = s.line ∧ t.errcnt = s.errcnt ∧ t.flast = s.flast := by
    cases h with
    | fsym | feol | rdsr => cases hi
    | ubegin | noScheme | upush | ufail | query => exact ⟨rfl, rfl, rfl⟩
  have hquery : (i = .ucnt ∨ i = .urun ∨ ∃ k, i = .uget k) → t.unp = s.unp := by
    intro hq
    rcases h.unp with e | ⟨m, sch, rfl, -⟩ | ⟨b, rfl, -⟩ | ⟨rfl, -⟩
    · exact e
    all_goals simp at hq
  obtain ⟨hline, herr, hflast⟩ := hframer
  exact ⟨hline, herr, hflast, hill, hcw, h.inbox, h.rsp, hquery, fun a ha => h.read ha⟩

/-- Settles O18, by the outcomes of the two commands of the framer. -/
theorem framerCommandsFrame : Obligations.FramerCommandsFrame := by
  intro i s t hi h
  have h := commandEffect_of_exec h
  have hp := h.rsp
  cases h with
  | fsym c => exact ⟨rfl, fun _ => rfl, rfl, rfl, rfl, hp, fun _ => ⟨rfl, rfl, rfl⟩⟩
  | feol => exact ⟨rfl, fun _ => rfl, rfl, rfl, rfl, hp, fun h => absurd rfl h⟩
  | ubegin | noScheme | upush | ufail | rdsr => cases hi
  | query i rs hq => rw [(unit_of_queryReport hq).2] at hi; cases hi

/-- Settles O46: no outcome but that of `FEOL` takes anything else from the line registers than the new ones. -/
theorem lineRegistersAreHidden : Obligations.LineRegistersAreHidden := by
  intro i s t l hi h
  cases commandEffect_of_exec h with
  | feol => exact absurd rfl hi
  | ubegin m sch hm => subst hm; exact ⟨_, exec_ubegin_bits sch _, rfl, rfl, rfl, rfl, rfl, rfl⟩
  | query i rs hq => exact ⟨_, exec_of_queryReport hq, rfl, rfl, rfl, rfl, rfl, rfl⟩
  | fsym | noScheme | upush | ufail | rdsr => exact ⟨_, rfl, rfl, rfl, rfl, rfl, rfl, rfl⟩

end Sys2Proof.Machine
end

section
/-! The words of the status reads and of a sample that has no value, field by field (10_state.md R33, 30_encoding.md R84,
R85). -/

namespace Sys2Proof.Machine

open BitVec (extractLsb'_append_eq_of_le extractLsb'_append_eq_left extractLsb'_append_eq_right)

/-- The field between two others, at the width of the lower one. -/
theorem middle_field {m n l : Nat} (x : BitVec m) (y : BitVec n) (z : BitVec l) :
    (x ++ y ++ z).extractLsb' l n = y := by
  rw [extractLsb'_append_eq_of_le le_rfl, Nat.sub_self, extractLsb'_append_eq_right]

/-- A bit is the field of width 1 at its place. -/
theorem getLsbD_of_field {w n : Nat} {v : BitVec w} {b : Bool} (h : v.extractLsb' n 1 = BitVec.ofBool b) :
    v.getLsbD n = b := by
  simpa using congrArg (BitVec.getLsbD · 0) h

theorem isNoValue_unone_invalid (i : BitVec 12) : isNoValue 1#2 i (Response.unone .invalid i).word := by
  refine ⟨Response.word_kind _, ?_, ?_, ?_, ?_⟩ <;> rw [Response.word_field _ (by decide)]
  · iterate 2 refine (extractLsb'_append_eq_of_le (by decide)).trans ?_
    exact extractLsb'_append_eq_left
  · exact (extractLsb'_append_eq_of_le (by decide)).trans (middle_field _ _ _)
  · exact middle_field _ _ _
  · exact extractLsb'_append_eq_right

/-- Settles O39: every command but `UBEGIN` keeps a buffer without value so, and then `UGET` answers `INVALID`. -/
theorem poisonLastsUntilUbegin : Obligations.PoisonLastsUntilUbegin := by
  intro prog s t hprog hs h
  have ht : t.unp.valid = false :=
    execAll_keeps (P := fun s => s.unp.valid = false) (fun hi hc => hc.valid (hprog _ hi)) hs h
  refine ⟨ht, fun i => ⟨(t.unp.answer i).word, exec_uget t i, ?_⟩⟩
  rw [Unpacker.answer, if_pos ht]
  exact isNoValue_unone_invalid i

theorem fstat_fields (s : State) :
    (s.statusReg 1#2).extractLsb' 0 24 = s.flast ∧ (s.statusReg 1#2).extractLsb' 24 8 = 0#8 := by
  have h : s.statusReg 1#2 = 0#8 ++ s.flast := BitVec.setWidth_eq_append (by decide)
  exact ⟨h ▸ extractLsb'_append_eq_right, h ▸ extractLsb'_append_eq_left⟩

theorem ustat_fields (s : State) :
    (s.statusReg 2#2).extractLsb' 0 13 = BitVec.ofNat 13 s.unp.L.val ∧
    (s.statusReg 2#2).extractLsb' 13 3 = 0#3 ∧
    (s.statusReg 2#2).extractLsb' 16 2 = s.unp.mode.bits ∧
    (s.statusReg 2#2).extractLsb' 18 2 = 0#2 ∧
    (s.statusReg 2#2).extractLsb' 20 1 = BitVec.ofBool s.unp.bad ∧
    (s.statusReg 2#2).extractLsb' 21 1 = BitVec.ofBool s.unp.uovf ∧
    (s.statusReg 2#2).extractLsb' 22 10 = 0#10 := by
  refine ⟨extractLsb'_append_eq_right, middle_field _ _ _, ?_, ?_, ?_, ?_, ?_⟩
  · exact (extractLsb'_append_eq_of_le (by decide)).trans (middle_field _ _ _)
  · iterate 2 refine (extractLsb'_append_eq_of_le (by decide)).trans ?_
    exact middle_field _ _ _
  · iterate 3 refine (extractLsb'_append_eq_of_le (by decide)).trans ?_
    exact middle_field _ _ _
  · iterate 4 refine (extractLsb'_append_eq_of_le (by decide)).trans ?_
    exact middle_field _ _ _
  · iterate 5 refine (extractLsb'_append_eq_of_le (by decide)).trans ?_
    exact extractLsb'_append_eq_left

theorem estat_fields (s : State) :
    (s.statusReg 3#2).extractLsb' 0 1 = BitVec.ofBool s.ill ∧
    (s.statusReg 3#2).extractLsb' 1 15 = 0#15 ∧
    (s.statusReg 3#2).extractLsb' 16 16 = s.illcw :=
  ⟨extractLsb'_append_eq_right, middle_field _ _ _,
    (extractLsb'_append_eq_of_le (by decide)).trans extractLsb'_append_eq_left⟩

/-- A field of an `SREG` word is that field of the register read. -/
theorem sreg_field (v : BitVec 32) {start len : Nat} (h : start + len ≤ 32) :
    (Response.sreg v).word.extractLsb' start len = v.extractLsb' start len :=
  Response.word_field _ h

theorem Scheme.bits_toNat (m : Scheme) :
    m.bits.toNat = if m = .t12 then 0 else if m = .t12x5 then 1 else 2 := by
  cases m <;> rfl

/-- Settles O45, register by register. -/
theorem rdsrReadsStatusRegister : Obligations.RdsrReadsStatusRegister := by
  intro r s
  refine ⟨(Response.sreg (s.statusReg r)).word, exec_rdsr s r, Response.word_kind _, ?_, ?_, ?_, ?_⟩
  · rintro rfl
    exact (sreg_field _ (by decide)).trans BitVec.extractLsb'_eq_self
  · rintro rfl
    obtain ⟨hflast, hzero⟩ := fstat_fields s
    exact ⟨(sreg_field _ (by decide)).trans hflast, (sreg_field _ (by decide)).trans hzero⟩
  · rintro rfl
    obtain ⟨hL, hz, hmode, hz', hbad, huovf, hz''⟩ := ustat_fields s
    refine ⟨?_, (sreg_field _ (by decide)).trans hz, ?_, (sreg_field _ (by decide)).trans hz',
      getLsbD_of_field ((sreg_field _ (by decide)).trans hbad),
      getLsbD_of_field ((sreg_field _ (by decide)).trans huovf), (sreg_field _ (by decide)).trans hz''⟩
    · rw [sreg_field _ (by decide)]
      exact (congrArg BitVec.toNat hL).trans (Nat.mod_eq_of_lt (Nat.lt_trans s.unp.L.isLt (by decide)))
    · rw [sreg_field _ (by decide)]
      exact (congrArg BitVec.toNat hmode).trans s.unp.mode.bits_toNat
  · rintro rfl
    obtain ⟨hill, hz, hcw⟩ := estat_fields s
    exact ⟨getLsbD_of_field ((sreg_field _ (by decide)).trans hill), (sreg_field _ (by decide)).trans hz,
      (sreg_field _ (by decide)).trans hcw⟩

/-- Settles O12: every register by evaluation, the status registers one by one. -/
theorem resetValues : Obligations.ResetValues := by
  refine ⟨rfl, rfl, rfl, rfl, rfl, rfl, rfl, rfl, rfl, rfl, rfl, fun r => ?_⟩
  rcases twoBit_cases r with rfl | rfl | rfl | rfl <;> rfl

end Sys2Proof.Machine
end

section
/-! The symbol classes by the codes of the symbols (10_state.md R22). -/

namespace Sys2Proof.Machine

variable {c : Symbol}

theorem isHex_iff : isHex c = true ↔ (0x30 ≤ c.toNat ∧ c.toNat ≤ 0x39) ∨ (0x41 ≤ c.toNat ∧ c.toNat ≤ 0x46) := by
  simp [isHex, BitVec.le_def]

theorem isEol_iff : isEol c = true ↔ c.toNat = 0x0D ∨ c.toNat = 0x0A := by
  simp [isEol, ← BitVec.toNat_inj]

theorem hexVal_of_digit (h : 0x30 ≤ c.toNat) (h' : c.toNat ≤ 0x39) : (hexVal c).toNat = c.toNat - 0x30 := by
  have hle : c ≤ 0x39#8 := h'
  rw [hexVal, if_pos hle, BitVec.toNat_setWidth]
  bv_omega

theorem hexVal_of_letter (h : 0x41 ≤ c.toNat) (h' : c.toNat ≤ 0x46) : (hexVal c).toNat = c.toNat - 0x41 + 10 := by
  have hle : ¬c ≤ 0x39#8 := by bv_omega
  rw [hexVal, if_neg hle, BitVec.toNat_setWidth]
  bv_omega

/-- Settles O15, class by class. -/
theorem symbolClasses : Obligations.SymbolClasses :=
  fun _ => ⟨isHex_iff, hexVal_of_digit, hexVal_of_letter, isEol_iff⟩

end Sys2Proof.Machine
end

section
/-! A 12-bit code as bytes of the buffer (20_memory.md R54, R55), and which bytes a sample reads (R57). -/

namespace Sys2Proof.Machine

/-- An even nibble is the low half of its byte. -/
theorem Memory.nib_even (m : Memory) (a : Nat) : m.nib (2 * a) = (m.read a).extractLsb' 0 4 := by
  have hdiv : 2 * a / 2 = a := by omega
  have hmod : 2 * a % 2 = 0 := by omega
  rw [Memory.nib, hdiv, hmod]
  generalize m.read a = b
  revert b
  decide

/-- An odd nibble is the high half of its byte. -/
theorem Memory.nib_odd (m : Memory) (a : Nat) : m.nib (2 * a + 1) = (m.read a).extractLsb' 4 4 := by
  have hdiv : (2 * a + 1) / 2 = a := by omega
  have hmod : (2 * a + 1) % 2 = 1 := by omega
  rw [Memory.nib, hdiv, hmod]
  generalize m.read a = b
  revert b
  decide

/-- Three nibbles put in their places of a 12-bit word by shifts are the nibbles side by side. -/
theorem or_shifted_nibbles (x y z : BitVec 4) :
    x.setWidth 12 ||| (y.setWidth 12 <<< 4) ||| (z.setWidth 12 <<< 8) = z ++ (y ++ x) := by
  ext k hk
  simp only [BitVec.getElem_or, BitVec.getElem_shiftLeft, BitVec.getElem_setWidth]
  grind

/-- A 12-bit code is three nibbles side by side, the lowest first. -/
theorem Memory.code12_eq_append (m : Memory) (i : Nat) :
    m.code12 i = m.nib (3 * i + 2) ++ (m.nib (3 * i + 1) ++ m.nib (3 * i)) :=
  or_shifted_nibbles _ _ _

/-- Settles O34: the three nibbles of a code, each as half of its byte, and the two halves of one byte joined. -/
theorem sampleCodeInBytes : Obligations.SampleCodeInBytes := by
  intro m j
  constructor
  · have h0 : 3 * (2 * j) = 2 * (3 * j) := by omega
    have h2 : 3 * (2 * j) + 2 = 2 * (3 * j + 1) := by omega
    rw [Memory.code12_eq_append, h2, h0, Memory.nib_even, Memory.nib_odd, Memory.nib_even, append_of_parts 4 4]
  · have h0 : 3 * (2 * j + 1) = 2 * (3 * j + 1) + 1 := by omega
    have h1 : 2 * (3 * j + 1) + 1 + 1 = 2 * (3 * j + 2) := by omega
    have h2 : 2 * (3 * j + 1) + 1 + 2 = 2 * (3 * j + 2) + 1 := by omega
    rw [Memory.code12_eq_append, h0, h1, h2, Memory.nib_odd, Memory.nib_even, Memory.nib_odd,
      BitVec.append_assoc', append_of_parts 4 4, BitVec.cast_eq]

/-- A 12-bit code depends only on the bytes that hold its nibbles. -/
theorem Memory.code12_congr {m m' : Memory} {i : Nat}
    (h : ∀ a, 3 * i / 2 ≤ a → a ≤ (3 * i + 2) / 2 → m.read a = m'.read a) : m.code12 i = m'.code12 i := by
  have h0 : m.nib (3 * i) = m'.nib (3 * i) := Memory.nib_congr (h _ (by omega) (by omega))
  have h1 : m.nib (3 * i + 1) = m'.nib (3 * i + 1) := Memory.nib_congr (h _ (by omega) (by omega))
  have h2 : m.nib (3 * i + 2) = m'.nib (3 * i + 2) := Memory.nib_congr (h _ (by omega) (by omega))
  rw [Memory.code12, h0, h1, h2, Memory.code12]

section sample

variable {u v : Unpacker} {i : Nat}

/-- In scheme `B8` a code is a byte. -/
theorem Unpacker.code_of_b8 (h : u.mode = .b8) : u.code i = (u.rb.read i).setWidth 12 := by
  simp only [Unpacker.code, h]

/-- In the two other schemes a code is three nibbles. -/
theorem Unpacker.code_of_ne_b8 (h : u.mode ≠ .b8) : u.code i = u.rb.code12 i := by
  unfold Unpacker.code
  split
  · rfl
  · rfl
  · next hm => exact absurd hm h

/-- The samples of the 12-bit schemes use no more nibbles than the buffer holds (41_unpacker.md R150, R170). -/
theorem Unpacker.three_mul_N_le (h : u.mode ≠ .b8) : 3 * u.N ≤ 2 * u.L.val := by
  unfold Unpacker.N Unpacker.K Unpacker.D
  cases hm : u.mode with
  | t12 => simp only; split <;> omega
  | t12x5 => simp only [Config.percentiles_eq]; split <;> omega
  | b8 => exact absurd hm h

/-- In scheme `B8` there are no more samples than bytes. -/
theorem Unpacker.N_le_of_b8 (h : u.mode = .b8) : u.N ≤ u.L.val := by
  simp only [Unpacker.N, Unpacker.K, Unpacker.D, h]
  split <;> omega

theorem Unpacker.code_congr_of_ne_b8 (hm : u.mode ≠ .b8) (hv : v.mode = u.mode)
    (h : ∀ a, 3 * i / 2 ≤ a → a ≤ (3 * i + 2) / 2 → u.rb.read a = v.rb.read a) : u.code i = v.code i := by
  rw [Unpacker.code_of_ne_b8 hm, Unpacker.code_of_ne_b8 (hv ▸ hm), Memory.code12_congr h]

theorem Unpacker.code_congr_of_b8 (hm : u.mode = .b8) (hv : v.mode = u.mode) (h : u.rb.read i = v.rb.read i) :
    u.code i = v.code i := by
  rw [Unpacker.code_of_b8 hm, Unpacker.code_of_b8 (hv.trans hm), h]

/-- A sample below `N` depends only on the scheme and the bytes below `L` (20_memory.md R57). -/
theorem Unpacker.sample_congr (hi : i < u.N) (hv : v.mode = u.mode)
    (h : ∀ a < u.L.val, u.rb.read a = v.rb.read a) : u.sample i = v.sample i := by
  have hcode : u.code i = v.code i := by
    by_cases hm : u.mode = .b8
    · exact Unpacker.code_congr_of_b8 hm hv (h i (Nat.lt_of_lt_of_le hi (Unpacker.N_le_of_b8 hm)))
    · have := Unpacker.three_mul_N_le hm
      exact Unpacker.code_congr_of_ne_b8 hm hv fun a _ ha => h a (by omega)
  rw [Unpacker.sample, Unpacker.sample, hcode, hv]

end sample

/-- Settles O35, from the bounds on the number of samples and the bytes a code depends on. -/
theorem sampleReadsStayBelowL : Obligations.SampleReadsStayBelowL := by
  intro u v i hi hv
  refine ⟨fun hm => ?_, fun hm => ?_, Unpacker.sample_congr hi hv⟩
  · have hN := Unpacker.three_mul_N_le hm
    exact ⟨by omega, by omega, by omega, Unpacker.code_congr_of_ne_b8 hm hv⟩
  · exact ⟨Nat.lt_of_lt_of_le hi (Unpacker.N_le_of_b8 hm), Unpacker.code_congr_of_b8 hm hv⟩

end Sys2Proof.Machine
end

section
/-! A query leaves everything it answers from as it was (20_memory.md R53, 70_reset_and_hazards.md R237). -/

namespace Sys2Proof.Machine

/-- A query emits some responses, and asked again in the state it leaves it emits the same ones. -/
theorem exec_query_twice {i : Instr} (hi : i = .ucnt ∨ i = .urun ∨ (∃ k, i = .uget k) ∨ ∃ r, i = .rdsr r) (s : State) :
    ∃ rs, rs ≠ [] ∧ exec i s = .next (s.emit rs) ∧ exec i (s.emit rs) = .next ((s.emit rs).emit rs) := by
  rcases hi with rfl | rfl | ⟨k, rfl⟩ | ⟨r, rfl⟩
  · exact ⟨_, List.cons_ne_nil _ _, exec_ucnt s, exec_ucnt _⟩
  · exact ⟨_, List.cons_ne_nil _ _, exec_urun s, exec_urun _⟩
  · exact ⟨_, List.cons_ne_nil _ _, exec_uget s k, exec_uget _ k⟩
  · exact ⟨_, List.cons_ne_nil _ _, exec_rdsr s r, exec_rdsr _ r⟩

/-- Settles O48: the words appended are those of the responses a query emits twice. -/
theorem queriesAreIdempotent : Obligations.QueriesAreIdempotent := by
  intro i s t u hi ht hu
  obtain ⟨rs, hne, hs, hrs⟩ := exec_query_twice hi s
  cases hs.symm.trans ht
  cases hrs.symm.trans hu
  exact ⟨rs.map Response.word, by simpa using hne, rfl, rfl⟩

end Sys2Proof.Machine
end

section
/-! The bytes of the buffer at `L` and above show in no response (20_memory.md R57, R58; log entry 1): two states that agree
on all else stay so, step by step. -/

namespace Sys2Proof.Machine

/-- States agree on all but the bytes no rule may read exactly when one is the other with an
unpacker that agrees so. -/
theorem State.sameBelowL_iff {s s' : State} : s.sameBelowL s' ↔ ∃ v, s' = { s with unp := v } ∧ s.unp.same v := by
  constructor
  · rintro ⟨hline, herr, hflast, hunp, hill, hcw, hrsp, hin⟩
    refine ⟨s'.unp, ?_, hunp⟩
    rw [hline, herr, hflast, hill, hcw, hrsp, hin]
  · rintro ⟨v, rfl, hunp⟩
    exact ⟨rfl, rfl, rfl, hunp, rfl, rfl, rfl, rfl⟩

/-- Buffers that agree on all a rule may read are one unpacker but for the bytes. -/
theorem Unpacker.same_iff {u v : Unpacker} :
    u.same v ↔ ∃ rb, v = { u with rb := rb } ∧ ∀ a < u.L.val, u.rb.read a = rb.read a := by
  constructor
  · rintro ⟨hL, hmode, hbad, huovf, hread⟩
    exact ⟨v.rb, by cases u; cases v; simp_all, hread⟩
  · rintro ⟨rb, rfl, hread⟩
    exact ⟨rfl, rfl, rfl, rfl, hread⟩

/-- The derived quantities of a buffer are functions of its registers (41_unpacker.md R150). -/
theorem Unpacker.same.derived {u v : Unpacker} (h : u.same v) :
    u.valid = v.valid ∧ u.N = v.N ∧ u.header = v.header := by
  obtain ⟨rb, rfl, -⟩ := Unpacker.same_iff.1 h
  exact ⟨rfl, rfl, rfl⟩

theorem Unpacker.same.sample {u v : Unpacker} (h : u.same v) {i : Nat} (hi : i < u.N) : u.sample i = v.sample i := by
  obtain ⟨-, hmode, -, -, hread⟩ := h
  exact Unpacker.sample_congr hi hmode.symm hread

theorem Unpacker.same.answer {u v : Unpacker} (h : u.same v) (k : BitVec 12) : u.answer k = v.answer k := by
  obtain ⟨hvalid, hN, -⟩ := h.derived
  unfold Unpacker.answer
  rw [← hvalid, ← hN]
  split
  · rfl
  split
  · rfl
  next hk => exact h.sample (Nat.lt_of_not_le hk)

theorem Unpacker.same.decoded {u v : Unpacker} (h : u.same v) : u.decoded = v.decoded := by
  obtain ⟨-, hN, hheader⟩ := h.derived
  rw [Unpacker.decoded, Unpacker.decoded, ← hN, ← hheader,
    List.map_congr_left fun k hk => h.sample (List.mem_range.1 hk)]

/-- No query shows a byte at `L` or above. -/
theorem Unpacker.same.queryReport {u v : Unpacker} (h : u.same v) (i : Instr) : queryReport i u = queryReport i v := by
  cases i with
  | ucnt =>
    obtain ⟨-, -, hheader⟩ := h.derived
    exact congrArg (some [·]) hheader
  | uget k => exact congrArg (some [·]) (h.answer k)
  | urun => exact congrArg some h.decoded
  | fsym | feol | ubegin | upush | ufail | rdsr => rfl

/-- No status register shows a byte of the buffer. -/
theorem State.statusReg_congr {s : State} {v : Unpacker} (h : s.unp.same v) (r : BitVec 2) :
    State.statusReg { s with unp := v } r = s.statusReg r := by
  obtain ⟨rb, rfl, -⟩ := Unpacker.same_iff.1 h
  rfl

/-- After a `UBEGIN` any two buffers agree on all a rule may read: no byte lies below `L`. -/
theorem Unpacker.begin_same (u v : Unpacker) (m : Scheme) : (u.begin m).same (v.begin m) :=
  ⟨rfl, rfl, rfl, rfl, nofun⟩

/-- A push to two buffers that agree below `L` gives two that agree below the new `L`. The canonical form is needed for the
byte stored to read back. -/
theorem Unpacker.same.push {u v : Unpacker} (h : u.same v) (hu : u.rb.wf) (hv : v.rb.wf) (b : Byte) :
    (u.push b).same (v.push b) := by
  obtain ⟨rb, rfl, hread⟩ := Unpacker.same_iff.1 h
  rcases u.push_cases b with ⟨hL, e⟩ | ⟨hL, e⟩
  · rw [e, Unpacker.push_of_lt { u with rb := rb } b hL]
    refine ⟨rfl, rfl, rfl, rfl, fun a ha => ?_⟩
    simp only at ha ⊢
    rw [Memory.read_write hu.1, Memory.read_write hv.1]
    split
    · rfl
    · exact hread a (by omega)
  · rw [e, Unpacker.push_of_full { u with rb := rb } b hL]
    exact ⟨rfl, rfl, rfl, rfl, hread⟩

/-- A command keeps the canonical form of the buffer. -/
theorem CommandEffect.rb_wf {i : Instr} {s t : State} (h : CommandEffect s i t) (hs : s.unp.rb.wf) : t.unp.rb.wf := by
  rcases h.unp with e | ⟨m, sch, -, e⟩ | ⟨b, -, e⟩ | ⟨-, e⟩ <;> rw [e]
  · exact hs
  · exact hs
  · exact Unpacker.push_rb_wf hs b
  · exact hs

theorem StepEffect.rb_wf {s t : State} (h : StepEffect s t) (hs : s.unp.rb.wf) : t.unp.rb.wf := by
  cases h with
  | idle | illegal | take => exact hs
  | command _ _ hc => exact hc.rb_wf hs
  | reset => exact State.reset_inv.buffer

/-- A command executed in the two states answers two such states, the responses among what agrees. -/
theorem CommandEffect.sameBelowL {i : Instr} {s s' t : State} (ht : CommandEffect s i t) (hs : s.unp.rb.wf)
    (hs' : s'.unp.rb.wf) (h : s.sameBelowL s') : ∃ t', exec i s' = .next t' ∧ t.sameBelowL t' := by
  obtain ⟨v, rfl, hv⟩ := State.sameBelowL_iff.1 h
  simp only [State.sameBelowL_iff]
  cases ht with
  | fsym c => exact ⟨_, exec_fsym _ c, v, rfl, hv⟩
  | feol => exact ⟨_, exec_feol _, v, rfl, hv⟩
  | ubegin m sch hm => subst hm; exact ⟨_, exec_ubegin_bits sch _, v.begin sch, rfl, Unpacker.begin_same _ _ sch⟩
  | noScheme => exact ⟨_, exec_ubegin_three _, v, rfl, hv⟩
  | upush b => exact ⟨_, exec_upush _ b, v.push b, rfl, hv.push hs hs' b⟩
  | ufail =>
    obtain ⟨hL, hmode, -, huovf, hread⟩ := hv
    exact ⟨_, exec_ufail _, { v with bad := true }, rfl, hL, hmode, rfl, huovf, hread⟩
  | query i rs hq => exact ⟨_, exec_of_queryReport ((hv.queryReport i).symm.trans hq), v, rfl, hv⟩
  | rdsr r => exact ⟨_, exec_rdsr _ r, v, by rw [State.statusReg_congr hv]; rfl, hv⟩

/-- A step from the two states answers two such states. -/
theorem StepEffect.sameBelowL {s s' t : State} (ht : StepEffect s t) (hs : s.unp.rb.wf) (hs' : s'.unp.rb.wf)
    (h : s.sameBelowL s') : ∃ t', step s' = .next t' ∧ t.sameBelowL t' := by
  obtain ⟨v, rfl, hv⟩ := State.sameBelowL_iff.1 h
  cases ht with
  | idle hin => exact ⟨_, step_nil hin, h⟩
  | @command _ rest _ _ hin hd hc =>
    obtain ⟨t', e, htt'⟩ := hc.sameBelowL (s' := { s with unp := v, inbox := rest }) hs hs'
      (State.sameBelowL_iff.2 ⟨v, rfl, hv⟩)
    refine ⟨t', ?_, htt'⟩
    rw [step_cons (s := { s with unp := v }) hin]
    exact (accept_of_ok _ hd).trans e
  | illegal hin hd =>
    rw [step_cons (s := { s with unp := v }) hin]
    exact ⟨_, accept_of_error _ hd, State.sameBelowL_iff.2 ⟨v, rfl, hv⟩⟩
  | reset hin =>
    rw [step_cons (s := { s with unp := v }) hin]
    exact ⟨_, rfl, State.sameBelowL_iff.2 ⟨.reset, rfl, rfl, rfl, rfl, rfl, nofun⟩⟩
  | take hin =>
    rw [step_cons (s := { s with unp := v }) hin]
    exact ⟨_, rfl, State.sameBelowL_iff.2 ⟨v, rfl, hv⟩⟩

/-- Settles O51, by induction on the number of steps, the canonical form of the two buffers kept along. -/
theorem unwrittenBytesAreUnobservable : Obligations.UnwrittenBytesAreUnobservable := by
  intro k
  induction k with
  | zero => intro s s' t _ _ h ht; cases ht; exact ⟨s', rfl, h⟩
  | succ k ih =>
    intro s s' u hs hs' h hu
    obtain ⟨t, ht, hu⟩ := core_run_succ_next hu
    have ht := stepEffect_of_step ht
    obtain ⟨t', ht', htt'⟩ := ht.sameBelowL hs hs' h
    obtain ⟨u', hu', huu'⟩ := ih t t' u (ht.rb_wf hs) ((stepEffect_of_step ht').rb_wf hs') htt' hu
    exact ⟨u', (core_run_succ_of_next k ht').trans hu', huu'⟩

end Sys2Proof.Machine
end

section
/-! The encoder against the decoder: the fields of an encoded word, what each format reads from them, and that decoding
undoes encoding (30_encoding.md R72, R73). -/

namespace Sys2Proof

variable {cw : CommandWord}

theorem opOf_encode (i : Instr) : opOf (encode i) = i.op := Laws.OpcodeField.opOf_append _ _

theorem argOf_encode (i : Instr) : argOf (encode i) = i.arg := BitVec.extractLsb'_append_eq_right

/-- A field of the operand field is that field of the word. -/
theorem argOf_field {start len : Nat} (h : start + len ≤ 12) :
    (argOf cw).extractLsb' start len = cw.extractLsb' start len :=
  BitVec.extractLsb'_extractLsb'_of_le h

theorem selectorMbz_eq : selectorMbz cw = cw.extractLsb' 2 10 := argOf_field (by decide)

theorem selectorOf_eq : selectorOf cw = cw.extractLsb' 0 2 := argOf_field (by decide)

theorem decodeS_of_argOf {v : BitVec 8} (k : BitVec 8 → Instr) (h : argOf cw = 0#4 ++ v) :
    decodeS cw k = .ok (k v) := by
  rw [decodeS, h, BitVec.extractLsb'_append_eq_left, BitVec.extractLsb'_append_eq_right, if_pos rfl]

theorem decodeZ_of_argOf (i : Instr) (h : argOf cw = 0#12) : decodeZ cw i = .ok i := if_pos h

theorem selectorMbz_of_argOf {v : BitVec 2} (h : argOf cw = 0#10 ++ v) : selectorMbz cw = 0#10 := by
  rw [selectorMbz, h, BitVec.extractLsb'_append_eq_left]

theorem selectorOf_of_argOf {v : BitVec 2} (h : argOf cw = 0#10 ++ v) : selectorOf cw = v := by
  rw [selectorOf, h, BitVec.extractLsb'_append_eq_right]

theorem decode_encode {i : Instr} (h : i.wf = true) : decode (encode i) = .ok i := by
  have harg := argOf_encode i
  unfold decode
  rw [opOf_encode]
  cases i with
  | fsym c => exact decodeS_of_argOf .fsym harg
  | upush b => exact decodeS_of_argOf .upush harg
  | feol | ufail | ucnt | urun => exact decodeZ_of_argOf _ harg
  | ubegin m =>
    have hm : m ≠ 3#2 := bne_iff_ne.1 h
    simp [Instr.op, selectorMbz_of_argOf harg, selectorOf_of_argOf harg, hm]
  | uget k => exact congrArg (fun a => Except.ok (Instr.uget a)) harg
  | rdsr r => simp [Instr.op, selectorMbz_of_argOf harg, selectorOf_of_argOf harg]

/-- Settles O1, format by format. -/
theorem decodeOfEncodeIsSame : Obligations.DecodeOfEncodeIsSame := fun _ => decode_encode

/-- Settles O2, from the fields of a word that decodes. -/
theorem encodeOfDecodeIsSame : Obligations.EncodeOfDecodeIsSame :=
  fun _ _ h => ⟨wf_of_decode_eq_ok h, encode_of_decode_eq_ok h⟩

/-- Settles O4, each word read as the encoding of its command. -/
theorem specWordsDecode : Obligations.SpecWordsDecode :=
  ⟨decode_encode (i := .fsym 0x24) rfl, decode_encode (i := .feol) rfl, decode_encode (i := .ubegin 1) rfl,
    decode_encode (i := .upush 0xFF) rfl, decode_encode (i := .ufail) rfl, decode_encode (i := .ucnt) rfl,
    decode_encode (i := .uget 4095) rfl, decode_encode (i := .urun) rfl, decode_encode (i := .rdsr 3) rfl⟩

end Sys2Proof
end

section
/-! The pattern table of 30_encoding.md R73: the words that hit a row are the encodings of that row's commands. -/

namespace Sys2Proof

/-- A mask of the upper bits alone leaves a pattern of the upper bits exactly in the words that begin with it. -/
theorem and_upperMask_eq_iff (m n : Nat) {x : BitVec (m + n)} {p : BitVec m} :
    x &&& (BitVec.allOnes m ++ 0#n) = p ++ 0#n ↔ ∃ y : BitVec n, x = p ++ y := by
  rw [← append_of_parts m n x, BitVec.and_append, BitVec.and_allOnes, BitVec.and_zero, BitVec.append_left_inj]
  constructor
  · rintro rfl
    exact ⟨_, rfl⟩
  · rintro ⟨y, h⟩
    simpa only [BitVec.extractLsb'_append_eq_left] using congrArg (BitVec.extractLsb' n m) h

variable {cw : CommandWord} {op : BitVec 4}

theorem and_maskS_eq_iff : cw &&& 0xFF00#16 = op ++ 0#12 ↔ ∃ v : BitVec 8, cw = op ++ (0#4 ++ v) := by
  have assoc (y : BitVec 8) : op ++ 0#4 ++ y = op ++ (0#4 ++ y) := BitVec.append_assoc
  have h := and_upperMask_eq_iff 8 8 (x := cw) (p := op ++ 0#4)
  simp only [assoc] at h
  exact h

theorem and_maskM_eq_iff : cw &&& 0xFFFC#16 = op ++ 0#12 ↔ ∃ v : BitVec 2, cw = op ++ (0#10 ++ v) := by
  have assoc (y : BitVec 2) : op ++ 0#10 ++ y = op ++ (0#10 ++ y) := BitVec.append_assoc
  have h := and_upperMask_eq_iff 14 2 (x := cw) (p := op ++ 0#10)
  simp only [assoc] at h
  exact h

theorem and_maskI_eq_iff : cw &&& 0xF000#16 = op ++ 0#12 ↔ ∃ v : BitVec 12, cw = op ++ v :=
  and_upperMask_eq_iff 4 12

theorem and_maskZ_eq : cw &&& 0xFFFF#16 = cw := BitVec.and_allOnes

/-- The row of a command in the pattern table. -/
def Instr.row : Instr → TableRow
  | .fsym _ => ⟨"FSYM", 0x0000, 0xFF00⟩
  | .feol => ⟨"FEOL", 0x1000, 0xFFFF⟩
  | .ubegin _ => ⟨"UBEGIN", 0x4000, 0xFFFC⟩
  | .upush _ => ⟨"UPUSH", 0x5000, 0xFF00⟩
  | .ufail => ⟨"UFAIL", 0x6000, 0xFFFF⟩
  | .ucnt => ⟨"UCNT", 0x7000, 0xFFFF⟩
  | .uget _ => ⟨"UGET", 0x8000, 0xF000⟩
  | .urun => ⟨"URUN", 0x9000, 0xFFFF⟩
  | .rdsr _ => ⟨"RDSR", 0xC000, 0xFFFC⟩

theorem Instr.row_mem (i : Instr) : i.row ∈ commandTable := by
  cases i <;> simp [Instr.row, commandTable]

theorem Instr.row_mnemonic (i : Instr) : i.row.mnemonic = i.mnemonic := by
  cases i <;> rfl

/-- The row of a command is found in the table by its opcode. -/
theorem Instr.find_row (i : Instr) : commandTable.find? (fun row => opOf row.matchBits == i.op) = some i.row := by
  cases i <;> rfl

theorem Instr.row_eq_of_op_eq {i j : Instr} (h : i.op = j.op) : i.row = j.row :=
  Option.some.inj (by rw [← i.find_row, ← j.find_row, h])

/-- The word of a command hits the command's row. -/
theorem Instr.row_hits_encode (i : Instr) : i.row.hits (encode i) = true := by
  refine beq_iff_eq.2 ?_
  cases i with
  | fsym c => exact (and_maskS_eq_iff (op := 0x0#4)).2 ⟨c, rfl⟩
  | upush b => exact (and_maskS_eq_iff (op := 0x5#4)).2 ⟨b, rfl⟩
  | feol | ufail | ucnt | urun => exact and_maskZ_eq
  | ubegin m => exact (and_maskM_eq_iff (op := 0x4#4)).2 ⟨m, rfl⟩
  | uget k => exact (and_maskI_eq_iff (op := 0x8#4)).2 ⟨k, rfl⟩
  | rdsr r => exact (and_maskM_eq_iff (op := 0xC#4)).2 ⟨r, rfl⟩

/-- A word that hits a row is the encoding of a term of that row; the term `ubegin 3` is one. -/
theorem exists_encode_of_hits {row : TableRow} (hrow : row ∈ commandTable) (h : row.hits cw = true) :
    ∃ i : Instr, i.row = row ∧ encode i = cw := by
  replace h : cw &&& row.mask = row.matchBits := beq_iff_eq.1 h
  simp only [commandTable, List.mem_cons, List.not_mem_nil, or_false] at hrow
  rcases hrow with rfl | rfl | rfl | rfl | rfl | rfl | rfl | rfl | rfl
  · obtain ⟨v, rfl⟩ := (and_maskS_eq_iff (op := 0x0#4)).1 h
    exact ⟨.fsym v, rfl, rfl⟩
  · exact ⟨.feol, rfl, h.symm.trans and_maskZ_eq⟩
  · obtain ⟨v, rfl⟩ := (and_maskM_eq_iff (op := 0x4#4)).1 h
    exact ⟨.ubegin v, rfl, rfl⟩
  · obtain ⟨v, rfl⟩ := (and_maskS_eq_iff (op := 0x5#4)).1 h
    exact ⟨.upush v, rfl, rfl⟩
  · exact ⟨.ufail, rfl, h.symm.trans and_maskZ_eq⟩
  · exact ⟨.ucnt, rfl, h.symm.trans and_maskZ_eq⟩
  · obtain ⟨v, rfl⟩ := (and_maskI_eq_iff (op := 0x8#4)).1 h
    exact ⟨.uget v, rfl, rfl⟩
  · exact ⟨.urun, rfl, h.symm.trans and_maskZ_eq⟩
  · obtain ⟨v, rfl⟩ := (and_maskM_eq_iff (op := 0xC#4)).1 h
    exact ⟨.rdsr v, rfl, rfl⟩

/-- The word of a command hits no row but the command's. -/
theorem row_eq_of_hits_encode {row : TableRow} {i : Instr} (hrow : row ∈ commandTable)
    (h : row.hits (encode i) = true) : row = i.row := by
  obtain ⟨j, rfl, hj⟩ := exists_encode_of_hits hrow h
  exact Instr.row_eq_of_op_eq (by rw [← opOf_encode, hj, opOf_encode])

/-- The one term that is not well formed is `ubegin 3`. -/
theorem Instr.wf_of_ne {i : Instr} (h : i ≠ .ubegin 3#2) : i.wf = true := by
  cases i with
  | ubegin m => exact bne_iff_ne.2 fun hm => h (hm ▸ rfl)
  | fsym | feol | upush | ufail | ucnt | uget | urun | rdsr => rfl

/-- Settles O3: a word that decodes is the word of its command, so it hits that command's row and no other; a word that
hits a row is the encoding of a term, which the condition on `UBEGIN` makes a command. -/
theorem legalWordsHitOneTableRow : Obligations.LegalWordsHitOneTableRow := by
  refine fun cw => ⟨⟨?_, ?_⟩, fun row₁ h₁ row₂ h₂ hit₁ hit₂ => ?_, fun i hi row hrow hit => ?_⟩
  · rintro ⟨i, hi⟩
    obtain rfl := encode_of_decode_eq_ok hi
    refine ⟨i.row, i.row_mem, i.row_hits_encode, fun hm => ?_⟩
    cases i with
    | ubegin m =>
      rw [← selectorOf_eq, selectorOf_of_argOf (argOf_encode _)]
      exact bne_iff_ne.1 (wf_of_decode_eq_ok hi)
    | fsym | feol | upush | ufail | ucnt | uget | urun | rdsr => simp [Instr.row] at hm
  · rintro ⟨row, hrow, hit, hm⟩
    obtain ⟨i, rfl, rfl⟩ := exists_encode_of_hits hrow hit
    refine ⟨i, decode_encode (Instr.wf_of_ne ?_)⟩
    rintro rfl
    exact hm rfl rfl
  · obtain ⟨i, rfl, rfl⟩ := exists_encode_of_hits h₁ hit₁
    exact (row_eq_of_hits_encode h₂ hit₂).symm
  · obtain rfl := encode_of_decode_eq_ok hi
    rw [row_eq_of_hits_encode hrow hit, i.row_mnemonic]

end Sys2Proof
end

section
/-! The text form (30_encoding.md R91, R92): every line but a raw word gives encodings of well-formed commands. -/

namespace Sys2Proof.Machine

/-- The words all spell commands. -/
def SpellCommands (ws : List CommandWord) : Prop := ∀ w ∈ ws, ∃ i : Instr, decode w = .ok i ∧ i.wf = true

theorem spellCommands_map_encode {is : List Instr} (h : ∀ i ∈ is, i.wf = true) : SpellCommands (is.map encode) := by
  intro w hw
  obtain ⟨i, hi, rfl⟩ := List.mem_map.1 hw
  exact ⟨i, decode_encode (h i hi), h i hi⟩

theorem fstr_eq (cs : List Symbol) : fstr cs = (cs.map .fsym).map encode := by
  rw [List.map_map]; rfl

theorem fline_eq (cs : List Symbol) : fline cs = (cs.map Instr.fsym ++ [Instr.feol]).map encode := by
  rw [List.map_append, ← fstr_eq]; rfl

theorem ubytes_eq (bs : List Byte) : ubytes bs = (bs.map .upush).map encode := by
  rw [List.map_map]; rfl

theorem uload_eq (m : BitVec 2) (bs : List Byte) : uload m bs = (.ubegin m :: bs.map .upush).map encode := by
  rw [List.map_cons, ← ubytes_eq]; rfl

theorem wf_of_mem_fline {cs : List Symbol} : ∀ i ∈ cs.map Instr.fsym ++ [Instr.feol], i.wf = true :=
  List.forall_mem_append.2 ⟨by simp [Instr.wf], by simp [Instr.wf]⟩

theorem wf_of_mem_upushes {bs : List Byte} : ∀ i ∈ bs.map Instr.upush, i.wf = true := by simp [Instr.wf]

theorem wf_of_mem_uload {m : BitVec 2} {bs : List Byte} (hm : m ≠ 3#2) :
    ∀ i ∈ Instr.ubegin m :: bs.map .upush, i.wf = true :=
  List.forall_mem_cons.2 ⟨bne_iff_ne.2 hm, wf_of_mem_upushes⟩

/-- Decoding the words of well-formed commands gives the commands. -/
theorem map_decode_encode {is : List Instr} (h : ∀ i ∈ is, i.wf = true) : (is.map encode).map decode = is.map .ok := by
  rw [List.map_map]
  exact List.map_congr_left fun i hi => decode_encode (h i hi)

/-- Settles O5: the two expansions are encodings of the commands named. -/
theorem pseudoInstructionsExpand : Obligations.PseudoInstructionsExpand := by
  refine ⟨fun cs => ?_, fun m bs hm => ?_⟩
  · rw [fline_eq, map_decode_encode wf_of_mem_fline, List.map_append, List.map_map]; rfl
  · rw [uload_eq, map_decode_encode (wf_of_mem_uload hm), List.map_cons, List.map_map]; rfl

variable {ts : List Token} {ws : List CommandWord}

theorem noOperand_eq_some {i : Instr} (h : noOperand i ts = some ws) : ws = [i].map encode := by
  cases ts with
  | nil => exact (Option.some.inj h).symm
  | cons => cases h

theorem oneOperand_eq_some {α : Type} {read : Token → Option α} {mk : α → Instr}
    (h : oneOperand read mk ts = some ws) : ∃ t a, read t = some a ∧ ws = [mk a].map encode := by
  unfold oneOperand at h
  split at h
  · obtain ⟨a, ha, rfl⟩ := Option.map_eq_some_iff.1 h
    exact ⟨_, a, ha, rfl⟩
  · cases h

theorem lt_of_numberBelow {bound n : Nat} {t : Token} (h : numberBelow bound t = some n) : n < bound := by
  cases t with
  | word cs =>
    obtain ⟨k, -, hk⟩ := Option.bind_eq_some_iff.1 h
    split at hk
    · next hlt => exact Option.some.inj hk ▸ hlt
    · cases hk
  | symbol | text | comma => cases h

/-- The operand of a `UBEGIN` names a scheme. -/
theorem ne_three_of_schemeOperand {t : Token} {m : BitVec 2} (h : schemeOperand t = some m) : m ≠ 3#2 := by
  unfold schemeOperand at h
  split at h
  · cases h; decide
  split at h
  · cases h; decide
  split at h
  · cases h; decide
  obtain ⟨n, hn, rfl⟩ := Option.map_eq_some_iff.1 h
  have := lt_of_numberBelow hn
  bv_omega

theorem spellCommands_noOperand {i : Instr} (hi : i.wf = true) (h : noOperand i ts = some ws) : SpellCommands ws := by
  rw [noOperand_eq_some h]
  exact spellCommands_map_encode (by simpa using hi)

theorem spellCommands_oneOperand {α : Type} {read : Token → Option α} {mk : α → Instr}
    (hmk : ∀ t a, read t = some a → (mk a).wf = true) (h : oneOperand read mk ts = some ws) : SpellCommands ws := by
  obtain ⟨t, a, ha, rfl⟩ := oneOperand_eq_some h
  exact spellCommands_map_encode (by simpa using hmk t a ha)

theorem spellCommands_fline (cs : List Symbol) : SpellCommands (fline cs) := by
  rw [fline_eq]
  exact spellCommands_map_encode wf_of_mem_fline

/-- The words of `FSTR` are among those of `FLINE`. -/
theorem spellCommands_fstr (cs : List Symbol) : SpellCommands (fstr cs) :=
  fun w hw => spellCommands_fline cs w (List.mem_append_left _ hw)

theorem spellCommands_ubytes (bs : List Byte) : SpellCommands (ubytes bs) := by
  rw [ubytes_eq]
  exact spellCommands_map_encode wf_of_mem_upushes

theorem spellCommands_uload {m : BitVec 2} (hm : m ≠ 3#2) (bs : List Byte) : SpellCommands (uload m bs) := by
  rw [uload_eq]
  exact spellCommands_map_encode (wf_of_mem_uload hm)

/-- Settles O6, mnemonic by mnemonic: each line gives encodings of well-formed commands, the operand of a `UBEGIN` being
a scheme. -/
theorem onlyRawWordsAssembleIllegal : Obligations.OnlyRawWordsAssembleIllegal := by
  intro op ts ws h hop
  change SpellCommands ws
  cases op with
  | fsym | upush | uget | rdsr => exact spellCommands_oneOperand (fun _ _ _ => rfl) h
  | feol | ufail | ucnt | urun => exact spellCommands_noOperand rfl h
  | ubegin =>
    exact spellCommands_oneOperand (mk := .ubegin) (fun _ _ hm => bne_iff_ne.2 (ne_three_of_schemeOperand hm)) h
  | fstr =>
    simp only [expand] at h
    split at h
    · cases h; exact spellCommands_fstr _
    · cases h
  | fline =>
    simp only [expand] at h
    split at h
    · cases h; exact spellCommands_fline _
    · cases h
  | ubytes =>
    simp only [expand] at h
    split at h
    · cases h
    · obtain ⟨bs, -, rfl⟩ := Option.map_eq_some_iff.1 h
      exact spellCommands_ubytes bs
  | uload =>
    simp only [expand] at h
    split at h
    · split at h
      · next hm _ => cases h; exact spellCommands_uload (ne_three_of_schemeOperand hm) _
      · cases h
    · cases h
  | rawWord => exact absurd rfl hop

end Sys2Proof.Machine
end

section
/-! The words that spell no command, and what a step does with a word, a take and an empty inbox (30_encoding.md R70,
R71, R86). -/

namespace Sys2Proof

variable {cw : CommandWord}

/-- An answer that is an instruction under a condition and an error otherwise is no instruction iff the condition
fails. -/
theorem ite_ok_error_ne_ok_iff {c : Prop} [Decidable c] {i : Instr} {e : IllegalWord} :
    (∀ j, (if c then Except.ok i else Except.error e) ≠ Except.ok j) ↔ ¬c := by
  by_cases h : c <;> simp [h]

theorem decodeS_ne_ok_iff {k : BitVec 8 → Instr} :
    (∀ i, decodeS cw k ≠ .ok i) ↔ cw.extractLsb' 8 4 ≠ 0#4 := by
  rw [← argOf_field (by decide)]
  exact ite_ok_error_ne_ok_iff

theorem decodeZ_ne_ok_iff {j : Instr} : (∀ i, decodeZ cw j ≠ .ok i) ↔ cw.extractLsb' 0 12 ≠ 0#12 :=
  ite_ok_error_ne_ok_iff

/-- The opcodes that select no command. -/
theorem mem_of_ne_opcodes (op : BitVec 4)
    (h : op.toNat ≠ 0x0 ∧ op.toNat ≠ 0x1 ∧ op.toNat ≠ 0x4 ∧ op.toNat ≠ 0x5 ∧ op.toNat ≠ 0x6 ∧ op.toNat ≠ 0x7 ∧
      op.toNat ≠ 0x8 ∧ op.toNat ≠ 0x9 ∧ op.toNat ≠ 0xC) :
    op ∈ [0x2#4, 0x3#4, 0xA#4, 0xB#4, 0xD#4, 0xE#4, 0xF#4] := by
  revert op
  decide

theorem eq_ofNat_of_toNat {w n : Nat} {x : BitVec w} (h : x.toNat = n) : x = BitVec.ofNat w n := by
  rw [← h, BitVec.ofNat_toNat, BitVec.setWidth_eq]

/-- The words that decode to no command are those of the cases (a) to (e) of 30_encoding.md R86. -/
theorem decode_ne_ok_iff :
    (∀ i, decode cw ≠ .ok i) ↔
      (opOf cw ∈ [0x2#4, 0x3#4, 0xA#4, 0xB#4, 0xD#4, 0xE#4, 0xF#4]) ∨
      (opOf cw ∈ [0x0#4, 0x5#4] ∧ cw.extractLsb' 8 4 ≠ 0#4) ∨
      (opOf cw ∈ [0x1#4, 0x6#4, 0x7#4, 0x9#4] ∧ cw.extractLsb' 0 12 ≠ 0#12) ∨
      (opOf cw = 0x4#4 ∧ (cw.extractLsb' 2 10 ≠ 0#10 ∨ cw.extractLsb' 0 2 = 3#2)) ∨
      (opOf cw = 0xC#4 ∧ cw.extractLsb' 2 10 ≠ 0#10) := by
  unfold decode
  split
  case h_1 hop | h_4 hop =>
    rw [decodeS_ne_ok_iff, eq_ofNat_of_toNat hop]
    simp
  case h_2 hop | h_5 hop | h_6 hop | h_8 hop =>
    rw [decodeZ_ne_ok_iff, eq_ofNat_of_toNat hop]
    simp
  case h_3 hop =>
    rw [ite_ok_error_ne_ok_iff, selectorMbz_eq, selectorOf_eq, eq_ofNat_of_toNat hop]
    simp [imp_iff_not_or]
  case h_7 hop =>
    rw [eq_ofNat_of_toNat hop]
    simp
  case h_9 hop =>
    rw [ite_ok_error_ne_ok_iff, selectorMbz_eq, eq_ofNat_of_toNat hop]
    simp
  case h_10 h0 h1 h4 h5 h6 h7 h8 h9 hC =>
    exact iff_of_true nofun (.inl (mem_of_ne_opcodes _ ⟨h0, h1, h4, h5, h6, h7, h8, h9, hC⟩))

end Sys2Proof

namespace Sys2Proof.Machine

/-- A word that spells no command has the effect of an illegal command. -/
theorem accept_of_ne_ok {cw : CommandWord} (s : State) (h : ∀ i, decode cw ≠ .ok i) :
    accept cw s = .next (s.illegalCommand cw) := by
  cases hd : decode cw with
  | ok i => exact absurd hd (h i)
  | error e => exact accept_of_error s hd

/-- Settles O9, the words opcode by opcode, the effect that of an illegal command. -/
theorem illegalCommandsAndTheirEffect : Obligations.IllegalCommandsAndTheirEffect := by
  refine ⟨fun _ => decode_ne_ok_iff, fun s cw rest hin hcw => ?_⟩
  rw [step_cons hin]
  exact accept_of_ne_ok _ hcw

/-- Settles O8: the event is a word that is accepted and decodes. -/
theorem stepRunsDecodedCommand : Obligations.StepRunsDecodedCommand := by
  intro s cw rest i hin hd
  rw [step_cons hin]
  exact accept_of_ok _ hd

theorem State.takeResponse_of_cons {s : State} {w : ResponseWord} {ws : List ResponseWord} (h : s.rsp = w :: ws) :
    s.takeResponse = { s with rsp := ws } := by
  rw [State.takeResponse, h, List.tail_cons]

theorem State.takeResponse_of_nil {s : State} (h : s.rsp = []) : s.takeResponse = s := by
  cases s; cases h; rfl

/-- Settles O11, by whether a word waits and whether there is an event. -/
theorem takeAndIdleEffect : Obligations.TakeAndIdleEffect := by
  refine ⟨fun s rest w ws hin hrsp => ?_, fun s rest hin hrsp => ?_, fun s => step_nil⟩
  · rw [step_cons hin]
    exact congrArg Host.Outcome.next (State.takeResponse_of_cons (s := { s with inbox := rest }) hrsp)
  · rw [step_cons hin]
    exact congrArg Host.Outcome.next (State.takeResponse_of_nil (s := { s with inbox := rest }) hrsp)

end Sys2Proof.Machine
end

section
/-! How many responses a command emits (30_encoding.md R93): the samples of a buffer counted from its registers. -/

namespace Sys2Proof.Machine

theorem Unpacker.valid_eq_false_iff (u : Unpacker) : u.valid = false ↔ u.bad = true ∨ u.uovf = true := by
  cases hb : u.bad <;> simp [Unpacker.valid, hb]

/-- `D` by the scheme (41_unpacker.md R150). -/
theorem Unpacker.D_eq_bandCount (u : Unpacker) : u.D = bandCount u := by
  simp only [Unpacker.D, bandCount, u.valid_eq_false_iff]
  cases u.mode <;> rfl

theorem Unpacker.N_eq_sampleCount (u : Unpacker) : u.N = sampleCount u := by
  rw [Unpacker.N, u.D_eq_bandCount, sampleCount, Unpacker.K]
  cases u.mode <;> simp

theorem Unpacker.length_decoded (u : Unpacker) : u.decoded.length = 1 + sampleCount u := by
  simp [Unpacker.decoded, u.N_eq_sampleCount, Nat.add_comm]

/-- Settles O47, by the outcomes of a command. -/
theorem responseCounts : Obligations.ResponseCounts := by
  intro i s t hwf h
  cases commandEffect_of_exec h with
  | fsym | ubegin | upush | ufail => exact ⟨[], (List.append_nil _).symm, rfl⟩
  | noScheme => cases hwf
  | feol | rdsr => exact ⟨_, rfl, rfl⟩
  | query i rs hq =>
    refine ⟨rs.map Response.word, rfl, ?_⟩
    rw [List.length_map]
    cases i <;> cases hq
    · rfl
    · rfl
    · exact s.unp.length_decoded

end Sys2Proof.Machine
end

section
/-! The framer's two operations, case by case: what a push writes (40_framer.md R101) and how the registers of a line are
classified (R103, R105). The later proofs about the framer use these equations. -/

namespace Sys2Proof.Machine

namespace LineRegs

variable {r : LineRegs} {c : Symbol}

section push

theorem push_of_ovf (h : r.ovf = true) : r.push c = r := if_pos h

/-- The 65536th symbol of a line. -/
theorem push_of_full (h : r.ovf = false) (hpos : r.pos = 65535#16) : r.push c = { r with ovf := true } := by
  simp [push, h, hpos]

variable (hovf : r.ovf = false) (hpos : r.pos ≠ 65535#16)
include hovf hpos

theorem push_seek_dollar (h : r.ph = .seek) :
    r.push symDollar = { r with pos := r.pos + 1#16, ph := .body, dpos := r.pos } := by
  simp [push, hovf, hpos, h]

theorem push_seek_of_ne (h : r.ph = .seek) (hc : c ≠ symDollar) : r.push c = { r with pos := r.pos + 1#16 } := by
  simp [push, hovf, hpos, h, hc]

/-- A `*` after the `$` does the same in both phases. -/
theorem push_star (h : r.ph ≠ .seek) : r.push symStar = r.pushStar := by
  cases hph : r.ph with
  | seek => exact absurd hph h
  | body => simp [push, hovf, hpos, hph]
  | tail => simp [push, hovf, hpos, hph]

theorem push_body_of_ne (h : r.ph = .body) (hc : c ≠ symStar) :
    r.push c = { r with pos := r.pos + 1#16, acc := r.acc ^^^ c } := by
  simp [push, hovf, hpos, h, hc]

theorem push_tail_of_ne (h : r.ph = .tail) (hc : c ≠ symStar) : r.push c = r.pushTail c := by
  simp [push, hovf, hpos, h, hc]

/-- What a push writes when it counts the symbol, one constructor per branch of 40_framer.md R101. -/
inductive PushEffect (r : LineRegs) : Symbol → LineRegs → Prop
  | dollar : r.ph = .seek → PushEffect r symDollar { r with pos := r.pos + 1#16, ph := .body, dpos := r.pos }
  | noise (c : Symbol) : r.ph = .seek → c ≠ symDollar → PushEffect r c { r with pos := r.pos + 1#16 }
  | star : r.ph ≠ .seek → PushEffect r symStar r.pushStar
  | body (c : Symbol) : r.ph = .body → c ≠ symStar →
      PushEffect r c { r with pos := r.pos + 1#16, acc := r.acc ^^^ c }
  | tail (c : Symbol) : r.ph = .tail → c ≠ symStar → PushEffect r c (r.pushTail c)

theorem push_effect (c : Symbol) : PushEffect r c (r.push c) := by
  by_cases hph : r.ph = .seek
  · by_cases hc : c = symDollar
    · subst hc; rw [push_seek_dollar hovf hpos hph]; exact .dollar hph
    · rw [push_seek_of_ne hovf hpos hph hc]; exact .noise c hph hc
  by_cases hc : c = symStar
  · subst hc; rw [push_star hovf hpos hph]; exact .star hph
  cases hph' : r.ph with
  | seek => exact absurd hph' hph
  | body => rw [push_body_of_ne hovf hpos hph' hc]; exact .body c hph' hc
  | tail => rw [push_tail_of_ne hovf hpos hph' hc]; exact .tail c hph' hc

end push

/-- A counted symbol moves the position by one. -/
theorem PushEffect.pos {r' : LineRegs} (h : PushEffect r c r') : r'.pos = r.pos + 1#16 ∧ r'.ovf = r.ovf := by
  cases h with
  | dollar | noise | star | body => exact ⟨rfl, rfl⟩
  | tail => obtain ⟨-, epos, -, -, eovf⟩ := r.pushTail_frame c; exact ⟨epos, eovf⟩

theorem pushTail_first (h : r.tcnt = 0#2) :
    r.pushTail c = { r with pos := r.pos + 1#16, acc := r.acc ^^^ c, h1 := c, tcnt := 1#2 } := by
  simp [pushTail, h]

theorem pushTail_second (h : r.tcnt = 1#2) :
    r.pushTail c = { r with pos := r.pos + 1#16, acc := r.acc ^^^ c, h0 := c, tcnt := 2#2 } := by
  simp [pushTail, h]

theorem pushTail_later (h : r.tcnt = 2#2 ∨ r.tcnt = 3#2) :
    r.pushTail c =
      { r with pos := r.pos + 1#16, acc := r.acc ^^^ c, tcnt := 3#2, tailOk := r.tailOk && isEol c } := by
  rcases h with h | h <;> simp [pushTail, h]

/-- Every symbol of the tail is counted into the running XOR. -/
theorem pushTail_acc (r : LineRegs) (c : Symbol) : (r.pushTail c).acc = r.acc ^^^ c ∧ (r.pushTail c).snap = r.snap := by
  unfold pushTail
  split <;> exact ⟨rfl, rfl⟩

section result

theorem result_of_ovf (h : r.ovf = true) : r.result = .failed .overlong := if_pos h

variable (hovf : r.ovf = false)
include hovf

theorem result_of_seek (h : r.ph = .seek) : r.result = .failed .noDollar := by
  simp [result, hovf, h]

theorem result_of_body (h : r.ph = .body) : r.result = .failed .noStar := by
  simp [result, hovf, h]

variable (hph : r.ph = .tail)
include hph

theorem result_of_shortSuffix (h : r.tcnt.toNat < 2) : r.result = .failed .shortSuffix := by
  have h' : r.tcnt < 2#2 := h
  simp [result, hovf, hph, h']

variable (htcnt : 2 ≤ r.tcnt.toNat)
include htcnt

theorem result_of_badHex (h : ¬(isHex r.h1 = true ∧ isHex r.h0 = true)) : r.result = .failed .badHex := by
  have h' : ¬r.tcnt < 2#2 := Nat.not_lt.2 htcnt
  rw [result, if_neg (by simp [hovf]), if_neg (by simp [hph]), if_neg (by simp [hph]), if_neg h', if_pos h]

variable (hhex : isHex r.h1 = true ∧ isHex r.h0 = true)
include hhex

theorem result_of_trailing (h : r.tailOk = false) : r.result = .failed .trailing := by
  have h' : ¬r.tcnt < 2#2 := Nat.not_lt.2 htcnt
  simp [result, hovf, hph, h', hhex, h]

theorem result_of_framed (h : r.tailOk = true) :
    r.result = .framed r.snap (suffixValue r.h1 r.h0) (r.dpos + 1#16) (r.spos - r.dpos - 1#16) := by
  have h' : ¬r.tcnt < 2#2 := Nat.not_lt.2 htcnt
  simp [result, hovf, hph, h', hhex, h]

end result

end LineRegs

end Sys2Proof.Machine
end

section
/-! `FSYM` and `FEOL` as commands: what a push writes, what an `FEOL` reports, counts, records and clears, and how the phase
moves (40_framer.md R101, R103 to R107, R114). -/

namespace Sys2Proof.Machine

theorem exec_fsym_of_push {c : Symbol} {s : State} {r : LineRegs} (h : s.line.push c = r) :
    exec (.fsym c) s = .next { s with line := r } := by
  rw [exec_fsym, h]

theorem isEol_iff_eq {c : Symbol} : isEol c = true ↔ c = 0x0D#8 ∨ c = 0x0A#8 := by
  simp [isEol]

/-- The running `tail_ok`, as R101 writes it. -/
theorem and_isEol (b : Bool) (c : Symbol) : (b && isEol c) = if c = 0x0D#8 ∨ c = 0x0A#8 then b else false := by
  simp only [← isEol_iff_eq]
  cases b <;> cases isEol c <;> rfl

/-- Settles O16, by the equation of each branch of a push. -/
theorem fsymPushesSymbol : Obligations.FsymPushesSymbol := by
  intro c s
  refine ⟨fun hovf => exec_fsym_of_push (LineRegs.push_of_ovf hovf),
    fun hovf hpos => exec_fsym_of_push (LineRegs.push_of_full hovf hpos), fun hovf hpos => ⟨?_, ?_, ?_, ?_, ?_, ?_, ?_⟩⟩
  · rintro hph rfl
    exact exec_fsym_of_push (LineRegs.push_seek_dollar hovf hpos hph)
  · exact fun hph hc => exec_fsym_of_push (LineRegs.push_seek_of_ne hovf hpos hph hc)
  · rintro hph rfl
    exact exec_fsym_of_push (LineRegs.push_star hovf hpos hph)
  · exact fun hph hc => exec_fsym_of_push (LineRegs.push_body_of_ne hovf hpos hph hc)
  · exact fun hph hc ht =>
      exec_fsym_of_push ((LineRegs.push_tail_of_ne hovf hpos hph hc).trans (LineRegs.pushTail_first ht))
  · exact fun hph hc ht =>
      exec_fsym_of_push ((LineRegs.push_tail_of_ne hovf hpos hph hc).trans (LineRegs.pushTail_second ht))
  · intro hph hc ht
    rw [← and_isEol]
    exact exec_fsym_of_push ((LineRegs.push_tail_of_ne hovf hpos hph hc).trans (LineRegs.pushTail_later ht))

/-- A push leaves the phase, or makes one of its two moves (40_framer.md R114). -/
theorem LineRegs.push_ph (r : LineRegs) (c : Symbol) :
    (r.push c).ph = r.ph ∨ (r.ph = .seek ∧ (r.push c).ph = .body ∧ c = symDollar) ∨
      (r.ph = .body ∧ (r.push c).ph = .tail ∧ c = symStar) := by
  cases hovf : r.ovf with
  | true => rw [push_of_ovf hovf]; exact .inl rfl
  | false =>
    by_cases hpos : r.pos = 65535#16
    · rw [push_of_full hovf hpos]; exact .inl rfl
    generalize r.push c = r', push_effect hovf hpos c = h
    cases h with
    | dollar hph => exact .inr (.inl ⟨hph, rfl, rfl⟩)
    | noise | body => exact .inl rfl
    | tail => exact .inl (r.pushTail_frame c).1
    | star hph =>
      cases hph' : r.ph with
      | seek => exact absurd hph' hph
      | body => exact .inr (.inr ⟨rfl, rfl, rfl⟩)
      | tail => exact .inl rfl

/-- Settles O24: of the outcomes of a command only those of `FSYM` and `FEOL` write the phase. -/
theorem phaseTransitions : Obligations.PhaseTransitions := by
  intro i s t h hne
  cases commandEffect_of_exec h with
  | fsym c =>
    rcases s.line.push_ph c with e | ⟨hs, ht, rfl⟩ | ⟨hs, ht, rfl⟩
    · exact absurd e hne
    · exact .inl ⟨hs, ht, rfl⟩
    · exact .inr (.inl ⟨hs, ht, rfl⟩)
  | feol => exact .inr (.inr ⟨rfl, rfl⟩)
  | ubegin | noScheme | upush | ufail | query | rdsr => exact absurd rfl hne

section feol

variable {s : State}

theorem LineResult.failed_summary (c : Cause) : (LineResult.failed c).summary = 0#16 ++ 0#3 ++ c.bits ++ 3#2 := by
  cases c <;> rfl

/-- A framing failure is not counted (40_framer.md R107). -/
theorem LineResult.failed_count (c : Cause) (n : BitVec 32) : countFailure (LineResult.failed c).status n = n :=
  if_neg (by simp [LineResult.failed])

theorem exec_feol_of_failed {c : Cause} (h : s.line.result = .failed c) :
    exec .feol s = .next { s with
      line := .start
      flast := 0#16 ++ 0#3 ++ c.bits ++ 3#2
      rsp := s.rsp ++ [0x1#4 ++ (0#8 ++ (0#16 ++ 0#3 ++ c.bits ++ 3#2)), 0x200000000#36, 0x3#4 ++ s.errcnt] } := by
  have hpos : (Response.fpos 0#16 0#16).word = 0x200000000#36 := by decide
  rw [exec_feol, h, LineResult.failed_count, ← LineResult.failed_summary, ← hpos]
  rfl

/-- What an `FEOL` answers for a well-framed line, its status and the new count given. -/
theorem exec_feol_of_framed {rx : BitVec 8} {start len : BitVec 16} {st : Status} {n : BitVec 32}
    (h : s.line.result = .framed s.line.snap rx start len)
    (hst : (if rx = s.line.snap then Status.ok else .checksum) = st) (hn : countFailure st s.errcnt = n) :
    exec .feol s = .next { s with
      line := .start
      errcnt := n
      flast := rx ++ s.line.snap ++ 0#3 ++ 0#3 ++ st.bits
      rsp := s.rsp ++ [0x1#4 ++ (0#8 ++ (rx ++ s.line.snap ++ 0#3 ++ 0#3 ++ st.bits)), 0x2#4 ++ (len ++ start),
        0x3#4 ++ n] } := by
  subst hst hn
  rw [exec_feol, h]
  rfl

/-- The first suffix symbol is the more significant digit (40_framer.md R106). -/
theorem suffixValue_toNat (h1 h0 : Symbol) : (suffixValue h1 h0).toNat = 16 * (hexVal h1).toNat + (hexVal h0).toNat := by
  rw [suffixValue, BitVec.toNat_append, ← Nat.shiftLeft_add_eq_or_of_lt (hexVal h0).isLt, Nat.shiftLeft_eq, Nat.mul_comm]

/-- Settles O17, by the classification's condition that holds first, and then by the count. -/
theorem feolEvaluatesLine : Obligations.FeolEvaluatesLine := by
  intro s clear failed framed
  have hfailed (c : Cause) : s.line.result = .failed c → failed c.bits := exec_feol_of_failed
  refine ⟨fun h => hfailed .overlong (LineRegs.result_of_ovf h), fun hovf =>
    ⟨fun hph => hfailed .noDollar (LineRegs.result_of_seek hovf hph),
      fun hph => hfailed .noStar (LineRegs.result_of_body hovf hph),
      fun hph ht => hfailed .shortSuffix (LineRegs.result_of_shortSuffix hovf hph ht),
      fun hph ht => ⟨fun hx => ?_, fun h1 h0 => ⟨fun hok => ?_, fun hok rx hrx => ?_⟩⟩⟩⟩
  · exact hfailed .badHex (LineRegs.result_of_badHex hovf hph ht fun ⟨h1, h0⟩ => by simp [h1, h0] at hx)
  · exact hfailed .trailing (LineRegs.result_of_trailing hovf hph ht ⟨h1, h0⟩ hok)
  · obtain rfl : rx = suffixValue s.line.h1 s.line.h0 := BitVec.eq_of_toNat_eq (hrx.trans (suffixValue_toNat _ _).symm)
    have hres := LineRegs.result_of_framed hovf hph ht ⟨h1, h0⟩ hok
    refine ⟨fun e => ?_, fun e hn => ?_, fun e hn => ?_⟩
    · exact exec_feol_of_framed hres (st := .ok) (if_pos e) (if_neg (by simp))
    · exact exec_feol_of_framed hres (st := .checksum) (if_neg e) (if_pos ⟨rfl, hn⟩)
    · exact exec_feol_of_framed hres (st := .checksum) (if_neg e) (by simp [countFailure, hn])

end feol

end Sys2Proof.Machine
end

section
/-! The line-level function of 40_framer.md R100 on a line written out by its parts: the symbols before the first `$`, the
payload up to the last `*`, and the suffix after it. -/

namespace Sys2Proof.Machine

theorem lastStar_eq_none_iff {cs : List Symbol} : lastStar cs = none ↔ symStar ∉ cs := by
  induction cs with
  | nil => simp [lastStar]
  | cons c cs ih =>
    cases h : lastStar cs with
    | none => simpa [lastStar, h, eq_comm] using fun _ => ih.1 h
    | some k => simpa [lastStar, h] using fun _ => by simpa [h] using ih

theorem lastStar_append_star (payload : List Symbol) {suffix : List Symbol} (hs : symStar ∉ suffix) :
    lastStar (payload ++ symStar :: suffix) = some payload.length := by
  induction payload with
  | nil => simp [lastStar, lastStar_eq_none_iff.2 hs]
  | cons c cs ih => simp [lastStar, ih]

/-- An index of a `*` with none after it is the greatest. -/
theorem lastStar_of_getElem? {cs : List Symbol} {k : Nat} (h : cs[k]? = some symStar) (hs : symStar ∉ cs.drop (k + 1)) :
    lastStar cs = some k := by
  obtain ⟨hk, e⟩ := List.getElem?_eq_some_iff.1 h
  have hcs : cs = cs.take k ++ symStar :: cs.drop (k + 1) := by rw [← e, List.getElem_cons_drop, List.take_append_drop]
  rw [hcs, lastStar_append_star _ hs, List.length_take_of_le hk.le]

theorem findIdx?_noDollar {cs : List Symbol} (hd : symDollar ∉ cs) : cs.findIdx? (· == symDollar) = none := by
  rw [List.findIdx?_eq_none_iff]
  exact fun c hc => beq_false_of_ne (ne_of_mem_of_not_mem hc hd)

theorem findIdx?_dollar {noise : List Symbol} (hd : symDollar ∉ noise) (rest : List Symbol) :
    (noise ++ symDollar :: rest).findIdx? (· == symDollar) = some noise.length := by
  rw [List.findIdx?_append, findIdx?_noDollar hd, List.findIdx?_cons, if_pos (beq_self_eq_true _)]
  simp

theorem drop_length_append_cons (as bs : List Symbol) (a : Symbol) : (as ++ a :: bs).drop (as.length + 1) = bs := by
  simp

section parts

variable (noise payload suffix : List Symbol) (n : Nat)

theorem drop_parts :
    (noise ++ symDollar :: (payload ++ symStar :: suffix)).drop (noise.length + 1 + payload.length + 1 + n) =
      suffix.drop n := by
  rw [Nat.add_assoc _ payload.length, ← List.drop_drop, ← List.drop_drop, drop_length_append_cons,
    drop_length_append_cons]

theorem getElem?_parts :
    (noise ++ symDollar :: (payload ++ symStar :: suffix))[noise.length + 1 + payload.length + 1 + n]? = suffix[n]? := by
  rw [← List.head?_drop, drop_parts, List.head?_drop]

theorem length_parts :
    (noise ++ symDollar :: (payload ++ symStar :: suffix)).length =
      noise.length + 1 + payload.length + 1 + suffix.length := by
  simp only [List.length_append, List.length_cons]
  omega

end parts

/-- Symbols with a `*` among them split at the last one. -/
theorem exists_last_star {cs : List Symbol} (h : symStar ∈ cs) :
    ∃ payload suffix, cs = payload ++ symStar :: suffix ∧ symStar ∉ suffix := by
  obtain ⟨as, bs, e, has⟩ := List.eq_append_cons_of_mem (List.mem_reverse.2 h)
  exact ⟨bs.reverse, as.reverse, by simpa using congrArg List.reverse e, by simpa using has⟩

theorem xorAll_concat (cs : List Symbol) (c : Symbol) : xorAll (cs ++ [c]) = xorAll cs ^^^ c := by
  simp [xorAll]

section frameTail

variable (d : Nat) (payload : List Symbol)

variable {h1 h0 : Symbol} {rest : List Symbol}

theorem frameTail_badHex (hhex : ¬(isHex h1 = true ∧ isHex h0 = true)) :
    frameTail d payload (h1 :: h0 :: rest) = .failed .badHex := if_pos hhex

variable (hhex : isHex h1 = true ∧ isHex h0 = true)
include hhex

theorem frameTail_trailing (heol : ¬∀ c ∈ rest, isEol c = true) :
    frameTail d payload (h1 :: h0 :: rest) = .failed .trailing := by
  rw [frameTail, if_neg (not_not.2 hhex), if_pos heol]

theorem frameTail_framed (heol : ∀ c ∈ rest, isEol c = true) :
    frameTail d payload (h1 :: h0 :: rest) =
      .framed (xorAll payload) (suffixValue h1 h0) (BitVec.ofNat 16 (d + 1)) (BitVec.ofNat 16 payload.length) := by
  rw [frameTail, if_neg (not_not.2 hhex), if_neg (not_not.2 heol)]

end frameTail

theorem frame_of_overlong {cs : List Symbol} (h : 65535 < cs.length) : frame cs = .failed .overlong := if_pos h

theorem frame_of_noDollar {cs : List Symbol} (hlen : cs.length ≤ 65535) (hd : symDollar ∉ cs) :
    frame cs = .failed .noDollar := by
  simp only [frame, if_neg (Nat.not_lt.2 hlen), findIdx?_noDollar hd]

section frame

variable {noise : List Symbol} (hd : symDollar ∉ noise)
include hd

theorem frame_of_noStar {body : List Symbol} (hlen : (noise ++ symDollar :: body).length ≤ 65535) (hs : symStar ∉ body) :
    frame (noise ++ symDollar :: body) = .failed .noStar := by
  simp only [frame, if_neg (Nat.not_lt.2 hlen), findIdx?_dollar hd, drop_length_append_cons, lastStar_eq_none_iff.2 hs]

theorem frame_of_parts {payload suffix : List Symbol}
    (hlen : (noise ++ symDollar :: (payload ++ symStar :: suffix)).length ≤ 65535) (hs : symStar ∉ suffix) :
    frame (noise ++ symDollar :: (payload ++ symStar :: suffix)) = frameTail noise.length payload suffix := by
  simp only [frame, if_neg (Nat.not_lt.2 hlen), findIdx?_dollar hd, drop_length_append_cons, lastStar_append_star payload hs]
  simp

end frame

end Sys2Proof.Machine
end

section
/-! What the line registers mean after the symbols of a line (40_framer.md R102): an invariant that each push carries on,
up to the symbols that a full line ignores. -/

namespace Sys2Proof.Machine

/-- What the registers of the tail say of the symbols after the last `*` (40_framer.md R102). -/
structure LineRegs.SuffixIs (r : LineRegs) (suffix : List Symbol) : Prop where
  tcnt : r.tcnt.toNat = min suffix.length 3
  h1 : ∀ c, suffix[0]? = some c → r.h1 = c
  h0 : ∀ c, suffix[1]? = some c → r.h0 = c
  tailOk : r.tailOk = true ↔ ∀ c ∈ suffix.drop 2, isEol c = true

/-- What the registers say of the symbols of a line, phase by phase; each phase says how the line is made up
(40_framer.md R102). -/
inductive LineRegs.PartsAre (r : LineRegs) : List Symbol → Prop
  | seek {noise : List Symbol} : symDollar ∉ noise → r.ph = .seek → r.acc = 0#8 → PartsAre r noise
  | body {noise body : List Symbol} : symDollar ∉ noise → symStar ∉ body →
      r.ph = .body → r.dpos.toNat = noise.length → r.acc = xorAll body →
      PartsAre r (noise ++ symDollar :: body)
  | tail {noise payload suffix : List Symbol} : symDollar ∉ noise → symStar ∉ suffix →
      r.ph = .tail → r.dpos.toNat = noise.length → r.acc = xorAll (payload ++ symStar :: suffix) →
      r.spos.toNat = noise.length + 1 + payload.length → r.snap = xorAll payload → r.SuffixIs suffix →
      PartsAre r (noise ++ symDollar :: (payload ++ symStar :: suffix))

/-- The registers describe a line of at most 65535 symbols (40_framer.md R102). -/
structure LineRegs.Describes (r : LineRegs) (cs : List Symbol) : Prop where
  pos : r.pos.toNat = cs.length
  ovf : r.ovf = false
  parts : r.PartsAre cs

namespace LineRegs

variable {r : LineRegs} {cs : List Symbol}

theorem Describes.length_le (h : r.Describes cs) : cs.length ≤ 65535 := by
  have := r.pos.isLt
  have := h.pos
  omega

theorem start_describes : start.Describes [] := ⟨rfl, rfl, .seek (by simp) rfl rfl⟩

/-- A `*` begins a new suffix. -/
theorem pushStar_suffixIs (r : LineRegs) : r.pushStar.SuffixIs [] := ⟨rfl, nofun, nofun, by simp [pushStar]⟩

/-- A symbol other than `*` goes on with the suffix, by how many symbols it has. -/
theorem SuffixIs.pushTail {suffix : List Symbol} (h : r.SuffixIs suffix) (c : Symbol) :
    (r.pushTail c).SuffixIs (suffix ++ [c]) := by
  obtain ⟨htcnt, hh1, hh0, hok⟩ := h
  match suffix with
  | [] =>
    rw [pushTail_first (BitVec.eq_of_toNat_eq htcnt)]
    exact ⟨rfl, by simp, by simp, by simpa using hok⟩
  | [a] =>
    rw [pushTail_second (BitVec.eq_of_toNat_eq htcnt)]
    exact ⟨rfl, hh1, by simp, by simpa using hok⟩
  | a :: b :: rest =>
    have ht : r.tcnt = 2#2 ∨ r.tcnt = 3#2 := by
      simp only [List.length_cons] at htcnt
      bv_omega
    rw [pushTail_later ht]
    exact ⟨by simp, hh1, hh0, by simp_all [or_imp, forall_and]⟩

/-- A `*` after the `$` ends the payload read so far. -/
theorem pushStar_partsAre {noise payload : List Symbol} (hd : symDollar ∉ noise) (hdpos : r.dpos.toNat = noise.length)
    (hacc : r.acc = xorAll payload) (hpos : r.pos.toNat = (noise ++ symDollar :: payload).length) :
    r.pushStar.PartsAre (noise ++ symDollar :: payload ++ [symStar]) := by
  rw [List.append_assoc, List.cons_append]
  refine .tail hd (by simp) rfl hdpos ?_ (hpos.trans ?_) hacc (pushStar_suffixIs r)
  · rw [xorAll_concat, ← hacc]
    rfl
  · simp only [List.length_append, List.length_cons]
    omega

/-- The symbol of a counted push goes to the part that the phase names. -/
theorem PartsAre.push {r' : LineRegs} {c : Symbol} (h : r.PartsAre cs) (hpos : r.pos.toNat = cs.length)
    (hc : PushEffect r c r') : r'.PartsAre (cs ++ [c]) := by
  cases h with
  | seek hd hph hacc =>
    cases hc with
    | dollar => exact .body hd (by simp) rfl hpos hacc
    | noise c _ hc => exact .seek (by simp [hd, Ne.symm hc]) hph hacc
    | star hph' => exact absurd hph hph'
    | body c hph' | tail c hph' => cases hph.symm.trans hph'
  | body hd hs hph hdpos hacc =>
    cases hc with
    | star => exact pushStar_partsAre hd hdpos hacc hpos
    | body c _ hc =>
      rw [List.append_assoc, List.cons_append]
      refine .body hd (by simp [hs, Ne.symm hc]) hph hdpos ?_
      rw [xorAll_concat, ← hacc]
    | dollar hph' | noise c hph' | tail c hph' => cases hph.symm.trans hph'
  | tail hd hs hph hdpos hacc hspos hsnap hsuf =>
    cases hc with
    | star => exact pushStar_partsAre hd hdpos hacc hpos
    | tail c _ hc =>
      obtain ⟨eph, -, edpos, espos, -⟩ := r.pushTail_frame c
      obtain ⟨eacc, esnap⟩ := r.pushTail_acc c
      rw [List.append_assoc, List.cons_append, List.append_assoc, List.cons_append]
      refine .tail hd (by simp [hs, Ne.symm hc]) (eph.trans hph) (by rw [edpos, hdpos]) ?_ (by rw [espos, hspos])
        (esnap.trans hsnap) (hsuf.pushTail c)
      rw [eacc, hacc, ← xorAll_concat, List.append_assoc, List.cons_append]
    | dollar hph' | noise c hph' | body c hph' => cases hph.symm.trans hph'

theorem Describes.push (h : r.Describes cs) (hlen : cs.length < 65535) (c : Symbol) :
    (r.push c).Describes (cs ++ [c]) := by
  obtain ⟨hpos, hovf, hparts⟩ := h
  have hfull : r.pos ≠ 65535#16 := fun e => hlen.ne (hpos.symm.trans (congrArg BitVec.toNat e))
  have heff := push_effect hovf hfull c
  refine ⟨?_, heff.pos.2.trans hovf, hparts.push hpos heff⟩
  rw [heff.pos.1, List.length_append, List.length_singleton]
  bv_omega

theorem foldl_push_describes (hlen : cs.length ≤ 65535) : (cs.foldl LineRegs.push start).Describes cs := by
  induction cs using List.reverseRecOn with
  | nil => exact start_describes
  | append_singleton cs c ih =>
    rw [List.length_append] at hlen
    rw [List.foldl_append]
    exact (ih (by omega)).push hlen c

/-- Once the line is too long, every further symbol is ignored. -/
theorem foldl_push_of_ovf (h : r.ovf = true) (cs : List Symbol) : cs.foldl LineRegs.push r = r := by
  induction cs with
  | nil => rfl
  | cons c cs ih => rw [List.foldl_cons, push_of_ovf h, ih]

/-- The symbol after the 65535th sets `ovf`, and no more is written (40_framer.md R102). -/
theorem foldl_push_overlong (hlen : 65535 < cs.length) :
    cs.foldl LineRegs.push start = { (cs.take 65535).foldl LineRegs.push start with ovf := true } := by
  have htake : (cs.take 65535).length = 65535 := List.length_take_of_le hlen.le
  obtain ⟨hpos, hovf, -⟩ := foldl_push_describes htake.le
  conv_lhs => rw [← List.take_append_drop 65535 cs, List.drop_eq_getElem_cons hlen, List.foldl_append, List.foldl_cons]
  rw [push_of_full hovf (BitVec.eq_of_toNat_eq (hpos.trans htake)), foldl_push_of_ovf rfl]

end LineRegs

end Sys2Proof.Machine
end

section
/-! The commands of a whole line: the registers after its symbols (40_framer.md R102), and the agreement of `FEOL` with the
line-level function (R115, R118). -/

namespace Sys2Proof.Machine

theorem execAll_map_fsym (cs : List Symbol) (s : State) :
    execAll (cs.map .fsym) s = .next { s with line := cs.foldl LineRegs.push s.line } := by
  induction cs generalizing s with
  | nil => rfl
  | cons c cs ih => rw [List.map_cons, execAll_cons_of_next (exec_fsym s c), ih, List.foldl_cons]

/-- The registers as 40_framer.md R102 words them: `d` is the index of the first `$`, `d + 1 + k` that of the last `*`
after it. -/
theorem LineRegs.PartsAre.registers {r : LineRegs} {cs : List Symbol} (h : r.PartsAre cs) :
    (r.ph = .seek ↔ 0x24#8 ∉ cs) ∧
    ∀ d, cs.findIdx? (· == 0x24#8) = some d →
      r.dpos.toNat = d ∧ r.acc = xorAll (cs.drop (d + 1)) ∧ (r.ph = .tail ↔ 0x2A#8 ∈ cs.drop (d + 1)) ∧
      ∀ k, (cs.drop (d + 1))[k]? = some 0x2A#8 → 0x2A#8 ∉ cs.drop (d + 1 + k + 1) →
        r.spos.toNat = d + 1 + k ∧ r.snap = xorAll ((cs.drop (d + 1)).take k) ∧
        r.tcnt.toNat = min (cs.length - 1 - (d + 1 + k)) 3 ∧
        (∀ c, cs[d + 1 + k + 1]? = some c → r.h1 = c) ∧ (∀ c, cs[d + 1 + k + 2]? = some c → r.h0 = c) ∧
        (r.tailOk = true ↔ ∀ c ∈ cs.drop (d + 1 + k + 3), c = 0x0D#8 ∨ c = 0x0A#8) := by
  cases h with
  | seek hd hph hacc =>
    refine ⟨iff_of_true hph hd, fun d hfind => ?_⟩
    cases (findIdx?_noDollar hd).symm.trans hfind
  | @body noise body hd hs hph hdpos hacc =>
    refine ⟨iff_of_false (by simp [hph]) (by simp [symDollar]), fun d hfind => ?_⟩
    cases (findIdx?_dollar hd body).symm.trans hfind
    rw [drop_length_append_cons]
    refine ⟨hdpos, hacc, iff_of_false (by simp [hph]) hs, fun k hk => ?_⟩
    exact absurd (List.mem_of_getElem? hk) hs
  | @tail noise payload suffix hd hs hph hdpos hacc hspos hsnap hsuf =>
    refine ⟨iff_of_false (by simp [hph]) (by simp [symDollar]), fun d hfind => ?_⟩
    cases (findIdx?_dollar hd _).symm.trans hfind
    rw [drop_length_append_cons]
    refine ⟨hdpos, hacc, iff_of_true hph (by simp [symStar]), fun k hk hk' => ?_⟩
    rw [Nat.add_assoc _ k, ← List.drop_drop, drop_length_append_cons] at hk'
    cases (lastStar_append_star payload hs).symm.trans (lastStar_of_getElem? hk hk')
    obtain ⟨htcnt, hh1, hh0, hok⟩ := hsuf
    refine ⟨hspos, by rw [List.take_left, hsnap], ?_, ?_, ?_, ?_⟩
    · rw [htcnt, length_parts]
      congr 1
      omega
    · exact fun c hc => hh1 c ((getElem?_parts noise payload suffix 0).symm.trans hc)
    · exact fun c hc => hh0 c ((getElem?_parts noise payload suffix 1).symm.trans hc)
    · rw [drop_parts noise payload suffix 2, hok]
      simp only [isEol_iff_eq]

/-- Settles O19, by the invariant of the pushes, and by the symbols that a full line ignores. -/
theorem pushedSymbolsDetermineRegisters : Obligations.PushedSymbolsDetermineRegisters := by
  intro cs s hs
  have hrun (cs : List Symbol) : execAll (cs.map .fsym) s = .next { s with line := cs.foldl LineRegs.push .start } := by
    rw [execAll_map_fsym, hs]
  refine ⟨fun hlen => ?_, fun hlen => ⟨_, hrun _, ?_⟩⟩
  · obtain ⟨hpos, hovf, hparts⟩ := LineRegs.foldl_push_describes hlen
    exact ⟨_, hrun cs, hpos, hovf, hparts.registers⟩
  · rw [hrun cs, LineRegs.foldl_push_overlong hlen]

/-- The classification of the tail is the one of the symbols after the last `*`. -/
theorem LineRegs.SuffixIs.result {r : LineRegs} {d : Nat} {payload suffix : List Symbol} (h : r.SuffixIs suffix)
    (hovf : r.ovf = false) (hph : r.ph = .tail) (hdpos : r.dpos.toNat = d) (hspos : r.spos.toNat = d + 1 + payload.length)
    (hsnap : r.snap = xorAll payload) : r.result = frameTail d payload suffix := by
  obtain ⟨htcnt, hh1, hh0, hok⟩ := h
  match suffix with
  | [] => exact result_of_shortSuffix hovf hph (by simp [htcnt])
  | [_] => exact result_of_shortSuffix hovf hph (by simp [htcnt])
  | h1 :: h0 :: rest =>
    obtain rfl := hh1 h1 rfl
    obtain rfl := hh0 h0 rfl
    have ht : 2 ≤ r.tcnt.toNat := htcnt ▸ le_min (by simp) (by decide)
    by_cases hhex : isHex r.h1 = true ∧ isHex r.h0 = true
    · by_cases heol : ∀ c ∈ rest, isEol c = true
      · have hstart : r.dpos + 1#16 = BitVec.ofNat 16 (d + 1) := by bv_omega
        have hlen : r.spos - r.dpos - 1#16 = BitVec.ofNat 16 payload.length := by bv_omega
        rw [result_of_framed hovf hph ht hhex (hok.2 heol), frameTail_framed _ _ hhex heol, hsnap, hstart, hlen]
      · rw [frameTail_trailing _ _ hhex heol]
        exact result_of_trailing hovf hph ht hhex (Bool.eq_false_iff.2 fun e => heol (hok.1 e))
    · rw [frameTail_badHex _ _ hhex]
      exact result_of_badHex hovf hph ht hhex

/-- The classification of the registers is the line-level function of the symbols pushed (40_framer.md R115). -/
theorem LineRegs.Describes.result {r : LineRegs} {cs : List Symbol} (h : r.Describes cs) : r.result = frame cs := by
  have hlen := h.length_le
  obtain ⟨-, hovf, hparts⟩ := h
  cases hparts with
  | seek hd hph => rw [result_of_seek hovf hph, frame_of_noDollar hlen hd]
  | body hd hs hph => rw [result_of_body hovf hph, frame_of_noStar hd hlen hs]
  | tail hd hs hph hdpos _ hspos hsnap hsuf => rw [hsuf.result hovf hph hdpos hspos hsnap, frame_of_parts hd hlen hs]

theorem result_foldl_push (cs : List Symbol) : (cs.foldl LineRegs.push .start).result = frame cs := by
  by_cases hlen : cs.length ≤ 65535
  · exact (LineRegs.foldl_push_describes hlen).result
  · have hlen := Nat.lt_of_not_le hlen
    rw [frame_of_overlong hlen, LineRegs.foldl_push_overlong hlen]
    exact LineRegs.result_of_ovf rfl

/-- A sequence of commands answers a next state. -/
theorem execAll_next (prog : List Instr) (s : State) : ∃ t, execAll prog s = .next t := by
  induction prog generalizing s with
  | nil => exact ⟨s, rfl⟩
  | cons i is ih =>
    obtain ⟨t, ws, e⟩ := exec_appends i s
    rw [execAll_cons_of_next (e s.rsp s.inbox)]
    exact ih _

/-- Settles O20: the framer's part of the run is that of the symbols alone, and the registers then classify the line as the
line-level function does. -/
theorem feolReportsFrameOfLine : Obligations.FeolReportsFrameOfLine := by
  intro cs prog s hs _ hprog
  obtain ⟨t, ht⟩ := execAll_next prog s
  obtain ⟨f, hf, ⟨hline, herr, -⟩, -⟩ := execAll_filter FramerAgrees.both FramerAgrees.left ⟨⟨rfl, rfl, rfl⟩, rfl⟩ ht
  rw [hprog, execAll_map_fsym, hs] at hf
  cases hf
  have hres : t.line.result = frame cs := by rw [hline, result_foldl_push]
  refine ⟨t, _, ht, exec_feol t, ?_, ?_, ?_, rfl⟩
  · simp [hres]
  · simp [hres, herr, countFailure]
  · simp [hres]

/-- Settles O23: after an `FEOL` the framer is at line start, and a valid line is not counted. -/
theorem validLineAfterAnyLineIsOk : Obligations.ValidLineAfterAnyLineIsOk := by
  intro cs s hok
  have hcount (n : BitVec 32) : countFailure (frame cs).status n = n := if_neg (by simp [hok])
  refine ⟨_, _, exec_feol s,
    (execAll_append _ _ (execAll_map_fsym cs _)).trans (execAll_cons_of_next (exec_feol _)), ?_, rfl, ?_⟩
  · simp [result_foldl_push, hcount]
  · simp [result_foldl_push, hcount]

end Sys2Proof.Machine
end

section
/-! What makes a line valid (40_framer.md R100): a line with its own checksum is (R116), and one that differs from a valid
line in one bit of its payload or suffix is not (R117). -/

namespace Sys2Proof.Machine

theorem isHex_hexDigit (v : BitVec 4) : isHex (hexDigit v) = true := by
  revert v; decide

theorem hexVal_hexDigit (v : BitVec 4) : hexVal (hexDigit v) = v := by
  revert v; decide

/-- The two digits of a value spell it. -/
theorem suffixValue_hexDigit (x : BitVec 8) :
    suffixValue (hexDigit (x.extractLsb' 4 4)) (hexDigit (x.extractLsb' 0 4)) = x := by
  rw [suffixValue, hexVal_hexDigit, hexVal_hexDigit, append_of_parts 4 4 x]

theorem ne_symStar_of_isHex {c : Symbol} (h : isHex c = true) : symStar ≠ c := by
  rintro rfl
  cases h

theorem ne_symStar_of_isEol {c : Symbol} (h : isEol c = true) : symStar ≠ c := by
  rintro rfl
  cases h

/-- No symbol one bit away from `*` is a hexadecimal digit (40_framer.md R117). -/
theorem flip_ne_symStar {c : Symbol} (h : isHex c = true) {b : Nat} (hb : b < 8) : symStar ≠ c ^^^ (1#8 <<< b) := by
  have hstar : ∀ b < 8, isHex (symStar ^^^ (1#8 <<< b)) = false := by decide
  intro e
  have hc : c = symStar ^^^ (1#8 <<< b) := by rw [e, BitVec.xor_assoc, BitVec.xor_self, BitVec.xor_zero]
  simp [hc, hstar b hb] at h

theorem flip_ne_self (c : Symbol) {b : Nat} (hb : b < 8) : c ^^^ (1#8 <<< b) ≠ c := by
  have hbit : ∀ b < 8, 1#8 <<< b ≠ 0#8 := by decide
  intro e
  exact hbit b hb (by simpa using congrArg (c ^^^ ·) e)

/-- Upper-case hexadecimal digits of the same value are the same symbol (40_framer.md R108). -/
theorem eq_of_hexVal_eq {c c' : Symbol} (h : isHex c = true) (h' : isHex c' = true) (e : hexVal c = hexVal c') :
    c = c' := by
  have e := congrArg BitVec.toNat e
  apply BitVec.eq_of_toNat_eq
  rcases isHex_iff.1 h with ⟨hl, hu⟩ | ⟨hl, hu⟩ <;> rcases isHex_iff.1 h' with ⟨hl', hu'⟩ | ⟨hl', hu'⟩
  · rw [hexVal_of_digit hl hu, hexVal_of_digit hl' hu'] at e; omega
  · rw [hexVal_of_digit hl hu, hexVal_of_letter hl' hu'] at e; omega
  · rw [hexVal_of_letter hl hu, hexVal_of_digit hl' hu'] at e; omega
  · rw [hexVal_of_letter hl hu, hexVal_of_letter hl' hu'] at e; omega

theorem hexVal_eq_of_suffixValue_eq {h1 h0 h1' h0' : Symbol} (e : suffixValue h1 h0 = suffixValue h1' h0') :
    hexVal h1 = hexVal h1' ∧ hexVal h0 = hexVal h0' := by
  have e := congrArg BitVec.toNat e
  rw [suffixValue_toNat, suffixValue_toNat] at e
  bv_omega

theorem xorAll_cons (c : Symbol) (cs : List Symbol) : xorAll (c :: cs) = c ^^^ xorAll cs := by
  rw [xorAll, xorAll, List.foldl_cons, BitVec.xor_comm 0#8 c, List.foldl_assoc]

/-- Changing bits of one symbol changes the same bits of the XOR. -/
theorem xorAll_set {cs : List Symbol} {i : Nat} {c : Symbol} (h : cs[i]? = some c) (m : BitVec 8) :
    xorAll (cs.set i (c ^^^ m)) = xorAll cs ^^^ m := by
  induction cs generalizing i with
  | nil => cases h
  | cons a cs ih =>
    cases i with
    | zero =>
      cases h
      rw [List.set_cons_zero, xorAll_cons, xorAll_cons, BitVec.xor_assoc, BitVec.xor_comm m, BitVec.xor_assoc]
    | succ i => rw [List.set_cons_succ, xorAll_cons, xorAll_cons, ih h, BitVec.xor_assoc]

/-- The parts of a valid line after its `$`: the suffix begins with two hexadecimal digits that spell the XOR of the payload,
and only CR and LF follow. -/
inductive ValidParts (payload : List Symbol) : List Symbol → Prop
  | mk {h1 h0 : Symbol} {eols : List Symbol} : isHex h1 = true → isHex h0 = true → (∀ c ∈ eols, isEol c = true) →
      suffixValue h1 h0 = xorAll payload → ValidParts payload (h1 :: h0 :: eols)

namespace ValidParts

variable {payload suffix : List Symbol}

theorem checksum {h1 h0 : Symbol} {eols : List Symbol} (h : ValidParts payload (h1 :: h0 :: eols)) :
    suffixValue h1 h0 = xorAll payload := by
  cases h; assumption

theorem star_not_mem (h : ValidParts payload suffix) : symStar ∉ suffix := by
  obtain ⟨hx1, hx0, heol, -⟩ := h
  simp only [List.mem_cons, not_or]
  exact ⟨ne_symStar_of_isHex hx1, ne_symStar_of_isHex hx0, fun hm => ne_symStar_of_isEol (heol _ hm) rfl⟩

theorem frameTail (h : ValidParts payload suffix) (d : Nat) :
    frameTail d payload suffix =
      ⟨.ok, .none, xorAll payload, xorAll payload, BitVec.ofNat 16 (d + 1), BitVec.ofNat 16 payload.length⟩ := by
  obtain ⟨hx1, hx0, heol, hsum⟩ := h
  rw [frameTail_framed _ _ ⟨hx1, hx0⟩ heol, hsum, LineResult.framed, if_pos rfl]

theorem of_frameTail {d : Nat} (h : (Machine.frameTail d payload suffix).status = .ok) : ValidParts payload suffix := by
  match suffix with
  | [] | [_] => cases h
  | h1 :: h0 :: eols =>
    by_cases hhex : isHex h1 = true ∧ isHex h0 = true
    · by_cases heol : ∀ c ∈ eols, isEol c = true
      · rw [frameTail_framed _ _ hhex heol] at h
        by_cases hsum : suffixValue h1 h0 = xorAll payload
        · exact ⟨hhex.1, hhex.2, heol, hsum⟩
        · cases (if_neg hsum).symm.trans h
      · rw [frameTail_trailing _ _ hhex heol] at h; cases h
    · rw [frameTail_badHex _ _ hhex] at h; cases h

/-- The payload determines the two digits. -/
theorem digits_eq {h1 h0 h1' h0' : Symbol} {eols eols' : List Symbol} (h : ValidParts payload (h1 :: h0 :: eols))
    (h' : ValidParts payload (h1' :: h0' :: eols')) : h1 = h1' ∧ h0 = h0' := by
  obtain ⟨hx1, hx0, -, hsum⟩ := h
  obtain ⟨hx1', hx0', -, hsum'⟩ := h'
  obtain ⟨e1, e0⟩ := hexVal_eq_of_suffixValue_eq (hsum.trans hsum'.symm)
  exact ⟨eq_of_hexVal_eq hx1 hx1' e1, eq_of_hexVal_eq hx0 hx0' e0⟩

variable {b : Nat} (hb : b < 8) {c : Symbol}
include hb

theorem not_flip_payload {i : Nat} (h : ValidParts payload suffix) (hc : payload[i]? = some c) :
    ¬ValidParts (payload.set i (c ^^^ (1#8 <<< b))) suffix := by
  intro h'
  cases h with
  | mk _ _ _ hsum => exact flip_ne_self _ hb ((xorAll_set hc _).symm.trans (h'.checksum.symm.trans hsum))

theorem not_flip_digit {n : Nat} (hn : n < 2) (h : ValidParts payload suffix) (hc : suffix[n]? = some c) :
    symStar ∉ suffix.set n (c ^^^ (1#8 <<< b)) ∧ ¬ValidParts payload (suffix.set n (c ^^^ (1#8 <<< b))) := by
  have hstar := h.star_not_mem
  cases h with
  | @mk h1 h0 eols hx1 hx0 heol hsum =>
  simp only [List.mem_cons, not_or] at hstar
  have hv := mk (payload := payload) hx1 hx0 heol hsum
  match n, hn with
  | 0, _ =>
    cases hc
    exact ⟨by simpa using ⟨flip_ne_symStar hx1 hb, hstar.2⟩, fun h' => flip_ne_self _ hb (h'.digits_eq hv).1⟩
  | 1, _ =>
    cases hc
    exact ⟨by simpa using ⟨hstar.1, flip_ne_symStar hx0 hb, hstar.2.2⟩, fun h' => flip_ne_self _ hb (h'.digits_eq hv).2⟩

end ValidParts

/-- Settles O21: the digits of the XOR spell it, and no symbol after them is a `*`. -/
theorem checksumRoundTrip : Obligations.ChecksumRoundTrip := by
  intro payload eols heols hlen
  have hv : ValidParts payload (hexDigit ((xorAll payload).extractLsb' 4 4) ::
      hexDigit ((xorAll payload).extractLsb' 0 4) :: eols) :=
    ⟨isHex_hexDigit _, isHex_hexDigit _, fun c hc => isEol_iff_eq.2 (heols c hc), suffixValue_hexDigit _⟩
  simp only [List.cons_append, List.append_assoc, List.nil_append]
  refine (frame_of_parts (noise := []) List.not_mem_nil ?_ hv.star_not_mem).trans (hv.frameTail 0)
  simp only [length_parts, List.length_nil, List.length_cons]
  omega

/-- A valid line by its parts. -/
theorem exists_parts_of_ok {cs : List Symbol} (h : (frame cs).status = .ok) :
    ∃ noise payload suffix, cs = noise ++ symDollar :: (payload ++ symStar :: suffix) ∧ symDollar ∉ noise ∧
      cs.length ≤ 65535 ∧ ValidParts payload suffix := by
  by_cases hlen : cs.length ≤ 65535
  · by_cases hd : symDollar ∈ cs
    · obtain ⟨noise, rest, rfl, hnoise⟩ := List.eq_append_cons_of_mem hd
      by_cases hs : symStar ∈ rest
      · obtain ⟨payload, suffix, rfl, hsuffix⟩ := exists_last_star hs
        rw [frame_of_parts hnoise hlen hsuffix] at h
        exact ⟨noise, payload, suffix, rfl, hnoise, hlen, .of_frameTail h⟩
      · rw [frame_of_noStar hnoise hlen hs] at h; cases h
    · rw [frame_of_noDollar hlen hd] at h; cases h
  · rw [frame_of_overlong (Nat.lt_of_not_le hlen)] at h; cases h

theorem set_append_cons (as bs : List Symbol) (a x : Symbol) (n : Nat) :
    (as ++ a :: bs).set (as.length + 1 + n) x = as ++ a :: bs.set n x := by
  rw [List.set_append_right _ _ (by omega), Nat.add_assoc, Nat.add_sub_cancel_left, Nat.add_comm 1, List.set_cons_succ]

section set

variable (noise payload suffix : List Symbol)

theorem getElem?_parts_payload {i : Nat} (hi : i < payload.length) :
    (noise ++ symDollar :: (payload ++ symStar :: suffix))[noise.length + 1 + i]? = payload[i]? := by
  rw [← List.getElem?_drop, drop_length_append_cons, List.getElem?_append_left hi]

theorem set_parts_payload {i : Nat} (hi : i < payload.length) (x : Symbol) :
    (noise ++ symDollar :: (payload ++ symStar :: suffix)).set (noise.length + 1 + i) x =
      noise ++ symDollar :: (payload.set i x ++ symStar :: suffix) := by
  rw [set_append_cons, List.set_append_left _ _ hi]

theorem set_parts_suffix (n : Nat) (x : Symbol) :
    (noise ++ symDollar :: (payload ++ symStar :: suffix)).set (noise.length + 1 + payload.length + 1 + n) x =
      noise ++ symDollar :: (payload ++ symStar :: suffix.set n x) := by
  rw [Nat.add_assoc _ 1 n, Nat.add_assoc _ payload.length, ← Nat.add_assoc payload.length, set_append_cons,
    set_append_cons]

end set

/-- Settles O22: the flip stays within its part, and one of the parts no longer fits the other. -/
theorem singleBitFlipIsCaught : Obligations.SingleBitFlipIsCaught := by
  intro cs j b c hok hb hj hplace hok'
  obtain ⟨noise, payload, suffix, rfl, hd, hlen, hv⟩ := exists_parts_of_ok hok
  have hlen' : (List.set _ j (c ^^^ (1#8 <<< b))).length ≤ 65535 := List.length_set.trans_le hlen
  have hj' : (∃ i, i < payload.length ∧ j = noise.length + 1 + i) ∨
      ∃ n, n < 2 ∧ j = noise.length + 1 + payload.length + 1 + n := by
    have hsize := length_parts noise payload suffix
    rw [frame_of_parts hd hlen hv.star_not_mem, hv.frameTail, BitVec.toNat_ofNat, BitVec.toNat_ofNat,
      Nat.mod_eq_of_lt (by omega), Nat.mod_eq_of_lt (by omega)] at hplace
    rcases hplace with ⟨hl, hu⟩ | e | e
    · exact .inl ⟨j - (noise.length + 1), by omega, by omega⟩
    · exact .inr ⟨0, by decide, e⟩
    · exact .inr ⟨1, by decide, e⟩
  rcases hj' with ⟨i, hi, rfl⟩ | ⟨n, hn, rfl⟩
  · rw [getElem?_parts_payload noise payload suffix hi] at hj
    rw [set_parts_payload noise payload suffix hi] at hok' hlen'
    rw [frame_of_parts hd hlen' hv.star_not_mem] at hok'
    exact hv.not_flip_payload hb hj (.of_frameTail hok')
  · rw [getElem?_parts] at hj
    obtain ⟨hstar, hnot⟩ := hv.not_flip_digit hb hn hj
    rw [set_parts_suffix] at hok' hlen'
    rw [frame_of_parts hd hlen' hstar] at hok'
    exact hnot (.of_frameTail hok')

end Sys2Proof.Machine
end

section
/-! The derived quantities of a buffer (41_unpacker.md R150): how many bands fit in the nibbles, and what is left. -/

namespace Sys2Proof.Machine

namespace Unpacker

variable {u : Unpacker}

theorem D_of_invalid (h : u.valid = false) : u.D = 0 := if_pos h

theorem N_of_invalid (h : u.valid = false) : u.N = 0 := by rw [N, D_of_invalid h, Nat.mul_zero]

theorem REM_of_invalid (h : u.valid = false) : u.REM = 0 := if_pos h

theorem D_of_b8 (h : u.valid = true) (hm : u.mode = .b8) : u.D = u.L.val := by simp [D, h, hm]

theorem REM_of_b8 (hm : u.mode = .b8) : u.REM = 0 := by simp [REM, hm]

theorem K_bounds (u : Unpacker) : 1 ≤ u.K ∧ u.K ≤ 5 := by
  unfold K
  cases u.mode <;> decide

/-- In the 12-bit schemes a band takes `3 K` of the `2 L` nibbles. -/
theorem D_eq_div (h : u.valid = true) (hm : u.mode ≠ .b8) : u.D = 2 * u.L.val / (3 * u.K) := by
  unfold D K
  cases hmode : u.mode with
  | t12 | t12x5 => simp [h]
  | b8 => exact absurd hmode hm

theorem REM_eq_mod (h : u.valid = true) (hm : u.mode ≠ .b8) : u.REM = 2 * u.L.val % (3 * u.K) := by
  rw [Nat.mod_def, ← D_eq_div h hm]
  unfold REM K
  cases hmode : u.mode with
  | t12 | t12x5 => simp [h]
  | b8 => exact absurd hmode hm

theorem REM_le (u : Unpacker) : u.REM ≤ 14 := by
  obtain ⟨hK, hK'⟩ := u.K_bounds
  by_cases hm : u.mode = .b8
  · rw [REM_of_b8 hm]; decide
  · cases hv : u.valid with
    | false => rw [REM_of_invalid hv]; decide
    | true =>
      rw [REM_eq_mod hv hm]
      have := Nat.mod_lt (2 * u.L.val) (y := 3 * u.K) (by omega)
      omega

theorem N_le (u : Unpacker) : u.N ≤ 4096 := by
  by_cases hm : u.mode = .b8
  · have := N_le_of_b8 hm; omega
  · have := three_mul_N_le hm; omega

theorem D_le (u : Unpacker) : u.D ≤ 4096 :=
  (Nat.le_mul_of_pos_left u.D u.K_bounds.1).trans u.N_le

theorem REM_eq_unusedNibbles (u : Unpacker) : u.REM = unusedNibbles u := by
  simp only [REM, unusedNibbles, D, u.valid_eq_false_iff]
  split
  · rfl
  · cases u.mode with
    | t12 | t12x5 => exact (Nat.mod_def _ _).symm
    | b8 => rfl

end Unpacker

/-- Settles O36, by division with remainder in the 12-bit schemes. -/
theorem bandCountIsLargest : Obligations.BandCountIsLargest := by
  intro u
  refine ⟨u.K_bounds.2, u.D_le, u.N_le, u.REM_le, fun hv hm => ⟨?_, ?_⟩, fun hv hm => ?_, fun hv hm => ?_,
    fun hv hm => ⟨Unpacker.D_of_b8 hv hm, Unpacker.REM_of_b8 hm⟩,
    fun hv => ⟨Unpacker.D_of_invalid hv, Unpacker.REM_of_invalid hv⟩⟩
  · rw [Unpacker.D_eq_div hv hm, Unpacker.REM_eq_mod hv hm, Nat.div_add_mod]
  · rw [Unpacker.REM_eq_mod hv hm]
    exact Nat.mod_lt _ (by have := u.K_bounds; omega)
  · have hK : u.K = 1 := by simp [Unpacker.K, hm]
    rw [Unpacker.REM_eq_mod hv (by simp [hm]), hK]
    omega
  · have hK : u.K = 5 := by simp [Unpacker.K, hm]
    rw [Unpacker.REM_eq_mod hv (by simp [hm]), hK]
    omega

end Sys2Proof.Machine
end

section
/-! The words of the unpacker's responses, field by field (30_encoding.md R82 to R84), and the code and the decibel value
of a sample as numbers (41_unpacker.md R158, R160). -/

namespace Sys2Proof.Machine

open BitVec (extractLsb'_append_eq_of_le extractLsb'_append_eq_right)

/-- The fields of a `UHDR` below its kind. -/
theorem uhdr_fields {w : ResponseWord} {valid : Bool} {mode : Scheme} {k : BitVec 3} {rem : BitVec 4} {d : BitVec 13}
    (h : w = (Response.uhdr valid mode k rem d).word) :
    w.extractLsb' 31 1 = BitVec.ofBool valid ∧ w.extractLsb' 30 1 = 0#1 ∧ w.extractLsb' 28 2 = mode.bits ∧
    w.extractLsb' 27 1 = 0#1 ∧ w.extractLsb' 24 3 = k ∧ w.extractLsb' 20 4 = 0#4 ∧ w.extractLsb' 16 4 = rem ∧
    w.extractLsb' 13 3 = 0#3 ∧ w.extractLsb' 0 13 = d := by
  subst h
  simp (disch := decide) only [Response.word_field, Response.data, extractLsb'_append_eq_of_le, Nat.reduceSub,
    extractLsb'_append_eq_right, BitVec.extractLsb'_eq_self, and_self]

/-- The fields of a `USMP` below its kind. -/
theorem usmp_fields {w : ResponseWord} {db : BitVec 16} {code : BitVec 12} (h : w = (Response.usmp db code).word) :
    w.extractLsb' 28 4 = 0#4 ∧ w.extractLsb' 16 12 = code ∧ w.extractLsb' 0 16 = db := by
  subst h
  simp (disch := decide) only [Response.word_field, Response.data, extractLsb'_append_eq_of_le, Nat.reduceSub,
    extractLsb'_append_eq_right, BitVec.extractLsb'_eq_self, and_self]

/-- The `UNONE` of either reason, field by field. -/
theorem isNoValue_unone (reason : NoValue) (i : BitVec 12) : isNoValue reason.bits i (Response.unone reason i).word := by
  refine ⟨Response.word_kind _, ?_⟩
  simp (disch := decide) only [Response.word_field, Response.data, extractLsb'_append_eq_of_le, Nat.reduceSub,
    extractLsb'_append_eq_right, BitVec.extractLsb'_eq_self, and_self]

/-- A nibble as a number is half of its byte (20_memory.md R54). -/
theorem Memory.toNat_nib (m : Memory) (n : Nat) : (m.nib n).toNat = nibbleNat m n := by
  rw [Memory.nib, nibbleNat, BitVec.toNat_setWidth, BitVec.toNat_and, BitVec.toNat_ushiftRight, Nat.shiftRight_eq_div_pow,
    pow_mul, ← Nat.and_two_pow_sub_one_eq_mod (_ / _) 4]
  exact Nat.mod_eq_of_lt (Nat.lt_of_le_of_lt Nat.and_le_right (by decide))

/-- A concatenation as a number. -/
theorem toNat_append_eq_add {m n : Nat} (x : BitVec m) (y : BitVec n) : (x ++ y).toNat = 2 ^ n * x.toNat + y.toNat := by
  rw [BitVec.toNat_append, ← Nat.shiftLeft_add_eq_or_of_lt y.isLt, Nat.shiftLeft_eq, Nat.mul_comm]

/-- The code of a sample as the number its nibbles, or its byte, spell. -/
theorem Unpacker.toNat_code (u : Unpacker) (i : Nat) : (u.code i).toNat = codeNat u i := by
  unfold codeNat
  split
  · next hm => rw [Unpacker.code_of_b8 hm, BitVec.toNat_setWidth_of_le (by decide)]
  · next hm =>
    rw [Unpacker.code_of_ne_b8 hm, Memory.code12_eq_append, toNat_append_eq_add, toNat_append_eq_add, Memory.toNat_nib,
      Memory.toNat_nib, Memory.toNat_nib]
    omega

/-- Less than 12288 units above the least decibel value nothing wraps (41_unpacker.md R162). -/
theorem toInt_clow_add_mul {step : BitVec 16} {code : BitVec 12} (h : step.toNat * code.toNat < 12288) :
    (Config.clow + step * code.setWidth 16).toInt = (step.toNat * code.toNat : Nat) - 12288 := by
  have hprod : (step * code.setWidth 16).toNat = step.toNat * code.toNat := by
    rw [BitVec.toNat_mul, BitVec.toNat_setWidth_of_le (by decide), Nat.mod_eq_of_lt (by omega)]
  have hsum : (Config.clow + step * code.setWidth 16).toNat = 53248 + step.toNat * code.toNat := by bv_omega
  rw [BitVec.toInt_eq_toNat_cond, hsum]
  omega

/-- The decibel value of a code that the scheme has, as an integer (41_unpacker.md R160). -/
theorem Scheme.toInt_db (m : Scheme) {code : BitVec 12} (h : m = .b8 → code.toNat < 256) :
    (m.db code).toInt = dbInt m code.toNat := by
  have hlt := code.isLt
  cases m with
  | t12 | t12x5 => exact toInt_clow_add_mul (step := 3#16) (show 3 * code.toNat < 12288 by omega)
  | b8 =>
    have hbyte := h rfl
    exact toInt_clow_add_mul (step := 48#16) (show 48 * code.toNat < 12288 by omega)

theorem Scheme.toInt_db_of_ne_b8 {m : Scheme} (hm : m ≠ .b8) (code : BitVec 12) :
    (m.db code).toInt = 3 * code.toNat - 12288 := by
  rw [m.toInt_db fun e => absurd e hm, dbInt, if_neg hm]

theorem Scheme.toInt_db_b8 {code : BitVec 12} (h : code.toNat < 256) :
    (Scheme.b8.db code).toInt = 48 * code.toNat - 12288 :=
  Scheme.toInt_db .b8 fun _ => h

theorem codeNat_lt_of_b8 {u : Unpacker} (h : u.mode = .b8) (i : Nat) : codeNat u i < 256 := by
  rw [codeNat, if_pos h]
  exact (u.rb.read i).isLt

theorem Unpacker.code_lt_of_b8 {u : Unpacker} (h : u.mode = .b8) (i : Nat) : (u.code i).toNat < 256 :=
  u.toNat_code i ▸ codeNat_lt_of_b8 h i

theorem isHeader_header (u : Unpacker) : isHeader u u.header.word := by
  obtain ⟨hvalid, hz30, hmode, hz27, hk, hz20, hrem, hz13, hd⟩ := uhdr_fields (rfl : u.header.word = _)
  refine ⟨Response.word_kind _, ?_, hz30, ?_, hz27, ?_, hz20, ?_, hz13, ?_⟩
  · rw [hvalid]
    split
    · next hbad => rw [u.valid_eq_false_iff.2 hbad]; rfl
    · next hbad => rw [Bool.eq_true_of_not_eq_false (mt u.valid_eq_false_iff.1 hbad)]; rfl
  · rw [hmode, u.mode.bits_toNat]
  · rw [hk, Unpacker.K]
    cases u.mode <;> rfl
  · rw [hrem, ← u.REM_eq_unusedNibbles]
    exact Nat.mod_eq_of_lt (Nat.lt_succ_of_le u.REM_le |>.trans_le (by decide))
  · rw [hd, ← u.D_eq_bandCount]
    exact Nat.mod_eq_of_lt (Nat.lt_succ_of_le u.D_le |>.trans_le (by decide))

theorem isSample_sample (u : Unpacker) (i : Nat) : isSample u i (u.sample i).word := by
  obtain ⟨hzero, hcode, hdb⟩ := usmp_fields (rfl : (u.sample i).word = _)
  refine ⟨Response.word_kind _, hzero, ?_, ?_⟩
  · rw [hcode, u.toNat_code]
  · rw [hdb, u.mode.toInt_db fun hm => Unpacker.code_lt_of_b8 hm i, u.toNat_code]

end Sys2Proof.Machine
end

section
/-! The queries of the unpacker (41_unpacker.md R151, R153, R155): what `UCNT`, `UGET` and `URUN` emit for the buffer as it
stands. -/

namespace Sys2Proof.Machine

/-- Settles O29: the word emitted is the header of the buffer. -/
theorem ucntReportsHeader : Obligations.UcntReportsHeader :=
  fun s => ⟨s.unp.header.word, exec_ucnt s, isHeader_header s.unp⟩

/-- Settles O28: in the header of a marked buffer `valid` and `D` are 0. -/
theorem ufailMarksPayload : Obligations.UfailMarksPayload := by
  intro s
  obtain ⟨hvalid, -, -, -, -, -, -, -, hd⟩ := uhdr_fields (rfl : { s.unp with bad := true }.header.word = _)
  exact ⟨_, _, exec_ufail s, rfl, exec_ucnt _, _, rfl, hvalid, hd⟩

section answer

variable {u : Unpacker} {i : BitVec 12}

theorem Unpacker.answer_of_invalid (h : u.valid = false) : u.answer i = .unone .invalid i := if_pos h

theorem Unpacker.answer_of_range (h : u.valid = true) (hi : u.N ≤ i.toNat) : u.answer i = .unone .range i := by
  rw [Unpacker.answer, if_neg (by simp [h]), if_pos hi]

/-- A buffer that has a sample has value. -/
theorem Unpacker.valid_of_lt_N {n : Nat} (h : n < u.N) : u.valid = true := by
  refine Bool.eq_true_of_not_eq_false fun hv => ?_
  rw [Unpacker.N_of_invalid hv] at h
  exact Nat.not_lt_zero _ h

theorem Unpacker.answer_of_lt (hi : i.toNat < u.N) : u.answer i = u.sample i.toNat := by
  rw [Unpacker.answer, if_neg (by simp [Unpacker.valid_of_lt_N hi]), if_neg (by omega)]

end answer

theorem Unpacker.valid_of_clear {u : Unpacker} (hbad : u.bad = false) (huovf : u.uovf = false) : u.valid = true := by
  rw [Unpacker.valid, hbad, huovf]; rfl

/-- Settles O30, by the three answers of a `UGET`. -/
theorem ugetAnswersOneSample : Obligations.UgetAnswersOneSample := by
  intro i s
  refine ⟨(s.unp.answer i).word, exec_uget s i, fun h => ?_, fun hbad huovf hi => ?_, fun _ _ hi => ?_⟩
  · rw [Unpacker.answer_of_invalid (s.unp.valid_eq_false_iff.2 h)]
    exact isNoValue_unone .invalid i
  · rw [Unpacker.answer_of_range (Unpacker.valid_of_clear hbad huovf) (s.unp.N_eq_sampleCount ▸ hi)]
    exact isNoValue_unone .range i
  · rw [Unpacker.answer_of_lt (s.unp.N_eq_sampleCount ▸ hi)]
    exact isSample_sample s.unp i.toNat

/-- The words of the samples of a buffer, in index order. -/
def Unpacker.sampleWords (u : Unpacker) : List ResponseWord := ((List.range u.N).map u.sample).map Response.word

theorem exec_urun_sampleWords (s : State) :
    exec .urun s = .next { s with rsp := s.rsp ++ s.unp.header.word :: s.unp.sampleWords } := rfl

theorem Unpacker.length_sampleWords (u : Unpacker) : u.sampleWords.length = sampleCount u := by
  simp [Unpacker.sampleWords, u.N_eq_sampleCount]

theorem Unpacker.isSample_of_getElem? {u : Unpacker} {i : Nat} {w : ResponseWord} (h : u.sampleWords[i]? = some w) :
    isSample u i w := by
  obtain ⟨hi, rfl⟩ := List.getElem?_eq_some_iff.1 h
  simpa [Unpacker.sampleWords] using isSample_sample u i

/-- Settles O31: the words of `URUN` are the header and the words of the samples. -/
theorem urunDecodesBuffer : Obligations.UrunDecodesBuffer := fun s =>
  ⟨_, _, exec_urun_sampleWords s, isHeader_header s.unp, s.unp.length_sampleWords,
    fun _ _ => Unpacker.isSample_of_getElem?⟩

/-- The places after a head that follows a list. -/
theorem getElem?_append_cons_add {α : Type} (as bs : List α) (b : α) (n : Nat) :
    (as ++ b :: bs)[as.length + 1 + n]? = bs[n]? := by
  rw [Nat.add_assoc, List.getElem?_append_right (by omega), Nat.add_sub_cancel_left, Nat.add_comm, List.getElem?_cons_succ]

/-- Settles O33: the word at that place is the one of the flat sample, since `5 d + k` is below `N = 5 D`. -/
theorem percentileGroupsAreFlat : Obligations.PercentileGroupsAreFlat := by
  intro s t d k hm h hd hk
  cases (exec_urun_sampleWords s).symm.trans h
  have hlen : s.unp.sampleWords.length = 5 * bandCount s.unp := by
    rw [Unpacker.length_sampleWords, sampleCount, if_pos hm]
  obtain ⟨w, hw⟩ : ∃ w, s.unp.sampleWords[5 * d + k]? = some w := ⟨_, List.getElem?_eq_getElem (by omega)⟩
  refine ⟨w, ?_, Unpacker.isSample_of_getElem? hw, ?_⟩
  · rw [← hw, Nat.add_assoc _ (5 * d) k]
    exact getElem?_append_cons_add _ _ _ _
  · simp only [List.length_append, List.length_cons, hlen]
    omega

theorem State.emit_emit (s : State) (rs qs : List Response) : (s.emit rs).emit qs = s.emit (rs ++ qs) := by
  simp [State.emit]

/-- A sequence of `UGET` of indices below `N` emits the samples of these indices. -/
theorem execAll_map_uget (is : List Nat) {s : State} (h : ∀ i ∈ is, i < s.unp.N) :
    execAll (is.map fun i => .uget (BitVec.ofNat 12 i)) s = .next (s.emit (is.map s.unp.sample)) := by
  induction is generalizing s with
  | nil => simp [State.emit]
  | cons i is ih =>
    have hi : i < s.unp.N := h i List.mem_cons_self
    have hfit : (BitVec.ofNat 12 i).toNat = i := Nat.mod_eq_of_lt (hi.trans_le s.unp.N_le)
    have hanswer : s.unp.answer (BitVec.ofNat 12 i) = s.unp.sample i := by
      rw [Unpacker.answer_of_lt (by rwa [hfit]), hfit]
    rw [List.map_cons, execAll_cons_of_next (exec_uget s _), hanswer,
      ih (s := s.emit _) fun j hj => h j (List.mem_cons_of_mem _ hj), State.emit_emit]
    rfl

/-- Settles O32: both emit the header and then the samples in index order. -/
theorem urunIsUcntThenUgets : Obligations.UrunIsUcntThenUgets := by
  intro s t h
  cases (exec_urun s).symm.trans h
  have hgets := execAll_map_uget (s := s.emit [s.unp.header]) (List.range s.unp.N) fun _ => List.mem_range.1
  rw [execAll_cons_of_next (exec_ucnt s), ← s.unp.N_eq_sampleCount, hgets, State.emit_emit]
  rfl

end Sys2Proof.Machine
end

section
/-! The decibel values (41_unpacker.md R160 to R162, R165): the range of the values in a `URUN`, the document's expression,
and the distance of a value from that of its nearest code. -/

namespace Sys2Proof.Machine

/-- A negative number has its highest bit set. -/
theorem extractLsb'_eq_one_of_toInt_neg {w : ResponseWord} (h : (w.extractLsb' 0 16).toInt < 0) :
    w.extractLsb' 15 1 = 1#1 := by
  have hmsb : (w.extractLsb' 0 16).msb = true := by rw [BitVec.msb_eq_toInt]; exact decide_eq_true h
  rw [BitVec.msb_eq_getLsbD_last, BitVec.getLsbD_extractLsb'] at hmsb
  ext i hi
  obtain rfl : i = 0 := by omega
  simpa using hmsb

/-- The values of the codes that the scheme has (41_unpacker.md R162). -/
theorem dbInt_bounds {m : Scheme} {code : Nat} (h : code < 4096) (h8 : m = .b8 → code < 256) :
    -12288 ≤ dbInt m code ∧ dbInt m code ≤ -3 ∧ (m = .b8 → dbInt m code ≤ -48) := by
  unfold dbInt
  split
  · next hm => have := h8 hm; omega
  · next hm => exact ⟨by omega, by omega, fun e => absurd e hm⟩

/-- Settles O40: a code has 12 bits, and 8 in scheme `B8`. -/
theorem decibelValuesAreInRange : Obligations.DecibelValuesAreInRange := by
  intro s t w h hw
  cases (exec_urun_sampleWords s).symm.trans h
  have hmem : w ∈ s.unp.sampleWords := by rwa [← List.drop_drop, List.drop_left] at hw
  obtain ⟨i, hi⟩ := List.mem_iff_getElem?.1 hmem
  obtain ⟨-, -, hcode, hdb⟩ := Unpacker.isSample_of_getElem? hi
  have hbyte : s.unp.mode = .b8 → codeNat s.unp i < 256 := fun hm => codeNat_lt_of_b8 hm i
  obtain ⟨hlow, hhigh, hb8⟩ := dbInt_bounds (hcode ▸ (w.extractLsb' 16 12).isLt) hbyte
  rw [← hdb] at hlow hhigh hb8
  refine ⟨hcode ▸ hdb, hlow, hhigh, extractLsb'_eq_one_of_toInt_neg (by omega), fun hm => ⟨?_, hb8 hm⟩⟩
  rw [hcode]
  exact Nat.le_of_lt_succ (hbyte hm)

/-- Settles O41, scheme by scheme: each side is the same linear function of the code. -/
theorem decibelValuesAreExact : Obligations.DecibelValuesAreExact := by
  refine fun code => ⟨?_, ?_, fun h => ?_⟩
  · rw [Scheme.toInt_db_of_ne_b8 (m := .t12) nofun]; push_cast; ring
  · rw [Scheme.toInt_db_of_ne_b8 (m := .t12x5) nofun]; push_cast; ring
  · rw [Scheme.toInt_db_b8 h]; push_cast; ring

/-- Within the range of the codes there is one within half a step. -/
theorem exists_code_near {x : ℝ} (h : 0 ≤ x) (h' : x ≤ 4095) : ∃ code : BitVec 12, |(code.toNat : ℝ) - x| ≤ 1 / 2 := by
  have hlt : ⌊x + 1 / 2⌋₊ < 2 ^ 12 := (Nat.floor_lt (by linarith)).2 (by norm_num; linarith)
  refine ⟨BitVec.ofNatLT _ hlt, ?_⟩
  have hle := Nat.floor_le (a := x + 1 / 2) (by linarith)
  have hgt := Nat.lt_floor_add_one (x + 1 / 2)
  rw [BitVec.toNat_ofNatLT, abs_le]
  constructor <;> linarith

/-- Settles O42: the nearest code is no farther than one within half a step, and a step is 0.046875 dB. -/
theorem quantizationRoundTrip : Obligations.QuantizationRoundTrip := by
  intro v code hv hv' hnear
  obtain ⟨other, hother⟩ := exists_code_near (x := (v + 192) / 0.046875) (by apply div_nonneg <;> linarith)
    (by rw [div_le_iff₀ (by norm_num)]; linarith)
  have hhalf := (hnear other).trans hother
  have hdist : ((Scheme.t12.db code).toInt : ℝ) / 64 - v = 0.046875 * ((code.toNat : ℝ) - (v + 192) / 0.046875) := by
    rw [Scheme.toInt_db_of_ne_b8 (m := .t12) nofun]
    push_cast
    ring
  rw [hdist, abs_mul]
  norm_num at hhalf ⊢
  linarith

end Sys2Proof.Machine
end

section
/-! Loading the buffer (41_unpacker.md R140, R142, R168): `UBEGIN` empties it, each `UPUSH` adds a byte until it is full. -/

namespace Sys2Proof.Machine

/-- Settles O26: each operand of `UBEGIN` by what it answers. -/
theorem ubeginStartsBuffer : Obligations.UbeginStartsBuffer :=
  fun s => ⟨exec_ubegin_t12 s, exec_ubegin_t12x5 s, exec_ubegin_b8 s, exec_ubegin_three s⟩

/-- Settles O27, by whether the buffer is full. -/
theorem upushAppendsByte : Obligations.UpushAppendsByte := by
  intro b s
  refine ⟨fun hL => ?_, fun hL => ?_⟩
  · refine ⟨s.unp.rb.write s.unp.L.val b, Nat.succ_lt_succ hL, ?_, fun hwf => ?_, fun a => Memory.read_write_ne _ b⟩
    · rw [exec_upush, Unpacker.push_of_lt _ _ hL]
    · exact ⟨Memory.read_write_same hwf _ b, Memory.write_wf hwf hL b⟩
  · rw [exec_upush, Unpacker.push_of_full _ _ hL]

theorem execAll_map_upush (bs : List Byte) (s : State) :
    execAll (bs.map .upush) s = .next { s with unp := bs.foldl Unpacker.push s.unp } := by
  induction bs generalizing s with
  | nil => rfl
  | cons b bs ih => rw [List.map_cons, execAll_cons_of_next (exec_upush s b), ih, List.foldl_cons]

/-- Loading a buffer: `UBEGIN` of a scheme, then one `UPUSH` per byte. -/
theorem execAll_load (sch : Scheme) (bs : List Byte) (s : State) :
    execAll (.ubegin sch.bits :: bs.map .upush) s = .next { s with unp := bs.foldl Unpacker.push (s.unp.begin sch) } := by
  rw [execAll_cons_of_next (exec_ubegin_bits sch s), execAll_map_upush]

/-- The buffer holds these bytes in the scheme, and has value. -/
structure Unpacker.Loaded (u : Unpacker) (sch : Scheme) (bs : List Byte) : Prop where
  L : u.L.val = bs.length
  mode : u.mode = sch
  bad : u.bad = false
  uovf : u.uovf = false
  wf : u.rb.wf
  read : ∀ (n : Nat) (b : Byte), bs[n]? = some b → u.rb.read n = b

theorem Unpacker.begin_loaded {u : Unpacker} (h : u.rb.wf) (sch : Scheme) : (u.begin sch).Loaded sch [] :=
  ⟨rfl, rfl, rfl, rfl, h, nofun⟩

/-- One more byte goes to the end. -/
theorem Unpacker.Loaded.push {u : Unpacker} {sch : Scheme} {bs : List Byte} (h : u.Loaded sch bs)
    (hlen : bs.length < 4096) (b : Byte) : (u.push b).Loaded sch (bs ++ [b]) := by
  obtain ⟨hL, hmode, hbad, huovf, hwf, hread⟩ := h
  have hlt : u.L.val < 4096 := hL ▸ hlen
  rw [u.push_of_lt b hlt]
  refine ⟨by simp [hL], hmode, hbad, huovf, Memory.write_wf hwf hlt b, fun n c hn => ?_⟩
  rw [Memory.read_write hwf.1, hL]
  by_cases hlast : n = bs.length
  · rw [if_pos hlast]
    rw [hlast, List.getElem?_concat_length] at hn
    exact Option.some_inj.1 hn
  · have hlt : n < (bs ++ [b]).length := (List.getElem?_eq_some_iff.1 hn).1
    rw [List.length_append, List.length_singleton] at hlt
    rw [if_neg hlast]
    exact hread n c (by rwa [List.getElem?_append_left (by omega)] at hn)

/-- The pushes of at most 4096 bytes load them. -/
theorem Unpacker.foldl_push_loaded {u : Unpacker} (hwf : u.rb.wf) (sch : Scheme) {bs : List Byte}
    (hlen : bs.length ≤ 4096) :
    (bs.foldl Unpacker.push (u.begin sch)).Loaded sch bs := by
  induction bs using List.reverseRecOn with
  | nil => exact Unpacker.begin_loaded hwf sch
  | append_singleton bs b ih =>
    rw [List.length_append] at hlen
    rw [List.foldl_append]
    exact (ih (Nat.le_of_succ_le hlen)).push hlen b

/-- Settles O37: each push adds its byte at the end. -/
theorem loadedBufferHoldsBytes : Obligations.LoadedBufferHoldsBytes := by
  intro sch bs s hwf hlen
  obtain ⟨hL, hmode, hbad, huovf, hwf, hread⟩ := Unpacker.foldl_push_loaded hwf sch hlen
  exact ⟨_, execAll_load sch bs s, hL, hmode, hbad, huovf, hwf, hread⟩

/-- A full buffer drops every byte and is without value. -/
theorem Unpacker.foldl_push_of_full {u : Unpacker} (hL : u.L.val = 4096) (b : Byte) (bs : List Byte) :
    (b :: bs).foldl Unpacker.push u = { u with uovf := true } := by
  induction bs generalizing b u with
  | nil => exact u.push_of_full b hL
  | cons c bs ih => rw [List.foldl_cons, u.push_of_full b hL, ih]; exact hL

/-- The first 4096 of more bytes load the buffer, and the others find it full. -/
theorem Unpacker.foldl_push_overflow {u : Unpacker} (hwf : u.rb.wf) (sch : Scheme) {bs : List Byte}
    (hlen : 4096 < bs.length) :
    ∃ v : Unpacker, v.Loaded sch (bs.take 4096) ∧ bs.foldl Unpacker.push (u.begin sch) = { v with uovf := true } := by
  have hload := Unpacker.foldl_push_loaded hwf sch (List.length_take_le 4096 bs)
  have hfull := hload.L.trans (List.length_take_of_le hlen.le)
  refine ⟨_, hload, ?_⟩
  conv_lhs => rw [← List.take_append_drop 4096 bs, List.foldl_append, List.drop_eq_getElem_cons hlen]
  exact Unpacker.foldl_push_of_full hfull _ _

/-- Settles O38: the buffer is loaded with the first 4096 bytes, but for the mark that takes its value. -/
theorem overflowedBufferHasNoValue : Obligations.OverflowedBufferHasNoValue := by
  intro sch bs s hwf hlen
  obtain ⟨v, ⟨hL, -, -, -, -, hread⟩, hpush⟩ := Unpacker.foldl_push_overflow hwf sch hlen
  have hvalid : { v with uovf := true }.valid = false := (Unpacker.valid_eq_false_iff _).2 (.inr rfl)
  refine ⟨{ v with uovf := true }, ?_, hL.trans (List.length_take_of_le hlen.le), rfl, hvalid,
    Unpacker.D_of_invalid hvalid, Unpacker.N_of_invalid hvalid, fun n b hn hb => hread n b ?_⟩
  · rw [execAll_load, hpush]
  · rw [List.getElem?_take_of_lt hn, hb]

end Sys2Proof.Machine
end

section
/-! What establishes the launch premises and what keeps them (70_reset_and_hazards.md R230, R234). -/

namespace Sys2Proof.Machine

variable {i : Instr} {s t : State}

theorem step_reset {rest : List HostEvent} (h : s.inbox = .reset :: rest) :
    step s = .next (State.resetEdge { s with inbox := rest }) := step_cons h

/-- Settles O10: the step is the reset edge. -/
theorem resetEdgeEffect : Obligations.ResetEdgeEffect :=
  fun _ _ h => ⟨_, step_reset h, rfl, rfl, rfl, rfl, rfl, rfl, rfl, rfl, rfl, rfl, rfl⟩

theorem State.resetEdge_resetDone (s : State) : s.resetEdge.resetDone := ⟨[], rfl⟩

/-- The registers of a state that is reset-done, whatever bytes the buffer holds (10_state.md R41). -/
theorem State.resetDone.premises (h : s.resetDone) :
    s.lineStart ∧ s.bufferFresh .t12 ∧ s.errcnt = 0 ∧ ¬s.runFaulted := by
  obtain ⟨rb, e⟩ := h
  rw [e]
  exact ⟨rfl, ⟨rfl, rfl, rfl, rfl⟩, rfl, nofun⟩

/-- Only the framer's commands write the line registers (10_state.md R31). -/
theorem CommandEffect.line_of_not_framer (h : CommandEffect s i t) (hi : isFramer i = false) : t.line = s.line := by
  cases h with
  | fsym | feol => cases hi
  | ubegin | noScheme | upush | ufail | query | rdsr => rfl

/-- Only the unpacker's commands write its registers (10_state.md R31). -/
theorem CommandEffect.unp_of_not_unpacker (h : CommandEffect s i t) (hi : isUnpacker i = false) : t.unp = s.unp := by
  rcases h.unp with e | ⟨m, sch, rfl, -⟩ | ⟨b, rfl, -⟩ | ⟨rfl, -⟩
  · exact e
  all_goals cases hi

theorem State.bufferFresh_of_unp_eq (h : t.unp = s.unp) {m : Scheme} (hs : s.bufferFresh m) : t.bufferFresh m := by
  unfold State.bufferFresh
  rwa [h]

/-- Settles O52: a reset, `FEOL` and `UBEGIN` by what they answer, the rest by what leaves the registers read. -/
theorem launchPremises : Obligations.LaunchPremises := by
  refine ⟨State.reset.resetEdge_resetDone, fun s t rest hin h => ?_, fun s => State.resetDone.premises,
    fun s t h => ?_, fun s t m h => ?_, fun i s t h _ => ?_, fun cw s t hcw h => ?_⟩
  · cases (step_reset hin).symm.trans h
    exact State.resetEdge_resetDone _
  · cases h
    rfl
  · cases (exec_ubegin_bits m s).symm.trans h
    exact ⟨rfl, rfl, rfl, rfl⟩
  · have h := commandEffect_of_exec h
    exact ⟨fun hi => (h.line_of_not_framer hi).trans,
      fun hi _ => State.bufferFresh_of_unp_eq (h.unp_of_not_unpacker hi)⟩
  · cases (accept_of_ne_ok s hcw).symm.trans h
    exact ⟨id, fun _ => id⟩

end Sys2Proof.Machine
end

section
/-! An observed run, event by event (70_reset_and_hazards.md R238; log entry 10): every state has one, by the length of
what the host will do. Proofs about what is observed are inductions on it. -/

namespace Sys2Proof.Machine

/-- The block is observed from the state until the host has done all: nothing is left, or the next event happens and the
rest is observed after it. -/
inductive Observes : State → Observation → Prop
  | ended {s : State} : s.inbox = [] → Observes s ⟨[], s⟩
  | event {s t : State} {e : HostEvent} {rest : List HostEvent} {o : Observation} :
      s.inbox = e :: rest → onEvent e { s with inbox := rest } = .next t → Observes t o →
      Observes s ⟨s.takenNext ++ o.responses, o.final⟩

variable {s t : State} {e : HostEvent} {o : Observation}

theorem onEvent_inbox (h : onEvent e s = .next t) : t.inbox = s.inbox := by
  cases e with
  | command cw => exact accept_inbox h
  | reset => cases h; rfl
  | take => cases h; rfl

/-- What an event does to the block does not depend on what the host does later. -/
theorem onEvent_withInbox (h : onEvent e s = .next t) (es : List HostEvent) :
    onEvent e { s with inbox := es } = .next { t with inbox := es } := by
  cases e with
  | command cw =>
    obtain ⟨u, ws, hu⟩ := accept_appends cw s
    cases (hu s.rsp s.inbox).symm.trans h
    exact hu s.rsp es
  | reset => cases h; rfl
  | take => cases h; rfl

/-- The run of these events is the one `State.observe` computes. -/
theorem Observes.observe (h : Observes s o) : s.observe = .next o := by
  induction h with
  | ended hin => simp [State.observe, hin]
  | @event s t e rest o hin he _ ih =>
    rw [State.observe, onEvent_inbox he] at ih
    rw [State.observe, hin]
    exact observeSteps_succ ((step_cons hin).trans he) ih

theorem Observes.final_inbox (h : Observes s o) : o.final.inbox = [] := by
  induction h with
  | ended hin => exact hin
  | event _ _ _ ih => exact ih

theorem exists_observes (s : State) : ∃ o, Observes s o := by
  induction hin : s.inbox generalizing s with
  | nil => exact ⟨_, .ended hin⟩
  | cons e rest ih =>
    obtain ⟨t, ht⟩ := onEvent_next e { s with inbox := rest }
    obtain ⟨o, ho⟩ := ih t (onEvent_inbox ht)
    exact ⟨_, .event hin ht ho⟩

end Sys2Proof.Machine
end

section
/-! A run and the same run with no response taken (20_memory.md R65, 70_reset_and_hazards.md R241, R243): the words the
first has taken stand before those that wait. -/

namespace Sys2Proof.Machine

variable {s t : State} {o : Observation} {rest : List HostEvent} {taken : List ResponseWord}

/-- The state of the same run with no response taken, given the words the host has taken. -/
def State.untaken (taken : List ResponseWord) (s : State) : State :=
  { s with rsp := taken ++ s.rsp, inbox := s.inbox.filter (· ≠ .take) }

@[simp] theorem State.untaken_inbox : (s.untaken taken).inbox = s.inbox.filter (· ≠ .take) := rfl

theorem State.takenNext_of_command {cw : CommandWord} (h : s.inbox = .command cw :: rest) : s.takenNext = [] := by
  simp only [State.takenNext, h]

theorem State.takenNext_of_take (h : s.inbox = .take :: rest) : s.takenNext = s.rsp.take 1 := by
  simp only [State.takenNext, h]

/-- A command does the same to both runs. -/
theorem accept_untaken {cw : CommandWord} (h : accept cw s = .next t) (taken : List ResponseWord) :
    accept cw (s.untaken taken) = .next (t.untaken taken) := by
  obtain ⟨u, ws, hu⟩ := accept_appends cw s
  cases (hu s.rsp s.inbox).symm.trans h
  rw [State.untaken, hu, State.untaken, List.append_assoc]

/-- Taking a response moves it from those that wait to those taken. -/
theorem State.takeResponse_untaken (h : s.inbox = .take :: rest) (taken : List ResponseWord) :
    State.untaken (taken ++ s.takenNext) (State.takeResponse { s with inbox := rest }) = s.untaken taken := by
  have hwords : s.takenNext ++ s.rsp.tail = s.rsp := by
    rw [State.takenNext_of_take h, ← List.drop_one, List.take_append_drop]
  simp [State.untaken, h, hwords]

/-- The run with no response taken goes through the untaken states. -/
theorem Observes.untaken (h : Observes s o) (hr : .reset ∉ s.inbox) (taken : List ResponseWord) :
    Observes (s.untaken taken) ⟨[], o.final.untaken (taken ++ o.responses)⟩ := by
  induction h generalizing taken with
  | ended hin =>
    rw [List.append_nil]
    exact .ended (by simp [hin])
  | @event s t e rest o hin he _ ih =>
    rw [hin, List.mem_cons, not_or] at hr
    obtain ⟨hne, hrest⟩ := hr
    rw [onEvent_inbox he] at ih
    cases e with
    | command cw =>
      have hin' : (s.untaken taken).inbox = .command cw :: rest.filter (· ≠ .take) := by simp [hin]
      have hrun := Observes.event hin' (accept_untaken he taken) (ih hrest taken)
      simpa [State.takenNext_of_command hin, State.takenNext_of_command hin'] using hrun
    | reset => exact absurd rfl hne
    | take =>
      cases he
      rw [← State.takeResponse_untaken hin, ← List.append_assoc]
      exact ih hrest (taken ++ s.takenNext)

/-- When the host has done all, the untaken state differs in the words only. -/
theorem State.untaken_of_ended (h : s.inbox = []) (taken : List ResponseWord) :
    s.untaken taken = { s with rsp := taken ++ s.rsp } := by
  simp [State.untaken, h]

/-- Settles O53: the run with no response taken ends in the untaken state of the end of this one. -/
theorem observationIsAllResponses : Obligations.ObservationIsAllResponses := by
  intro s hr
  obtain ⟨o, ho⟩ := exists_observes s
  have hall := (ho.untaken hr []).observe
  rw [State.untaken_of_ended ho.final_inbox] at hall
  refine ⟨o, _, ho.observe, hall, rfl, rfl, ho.final_inbox, ?_⟩
  rintro ⟨-, hrsp⟩
  simp [hrsp]

end Sys2Proof.Machine
end

section
/-! A host that takes the responses that wait (70_reset_and_hazards.md R238, R243). -/

namespace Sys2Proof.Machine

variable {s : State} {o : Observation}

/-- What the host takes next does not depend on what it does after that. -/
theorem State.takenNext_append {e : HostEvent} {rest : List HostEvent} (h : s.inbox = e :: rest) (es : List HostEvent) :
    State.takenNext { s with inbox := s.inbox ++ es } = s.takenNext := by
  cases e <;> simp only [State.takenNext, h, List.cons_append]

/-- A run that goes on is observed in two parts. -/
theorem Observes.append (h : Observes s o) {es : List HostEvent} {o' : Observation}
    (h' : Observes { o.final with inbox := es } o') :
    Observes { s with inbox := s.inbox ++ es } ⟨o.responses ++ o'.responses, o'.final⟩ := by
  induction h with
  | ended hin => simpa [hin] using h'
  | @event s t e rest o hin he _ ih =>
    rw [onEvent_inbox he] at ih
    rw [List.append_assoc, ← State.takenNext_append hin es]
    exact .event (s := { s with inbox := s.inbox ++ es }) (congrArg (· ++ es) hin)
      (onEvent_withInbox he (rest ++ es)) (ih h')

/-- A run of takes observes the words that wait, oldest first. -/
theorem observes_takes (n : Nat) (s : State) :
    Observes { s with inbox := List.replicate n .take }
      ⟨s.rsp.take n, { s with rsp := s.rsp.drop n, inbox := [] }⟩ := by
  induction n generalizing s with
  | zero => exact .ended rfl
  | succ n ih =>
    have hrest := ih s.takeResponse
    have hrun := Observes.event (s := { s with inbox := List.replicate (n + 1) .take }) rfl rfl hrest
    rw [State.takenNext_of_take rfl] at hrun
    have htake : s.rsp.take (n + 1) = s.rsp.take 1 ++ s.rsp.tail.take n := by cases s.rsp <;> simp
    rw [htake, ← List.drop_tail]
    exact hrun

/-- Settles O54: the takes at the end drop that many words, and a list is empty when no more than all are dropped. -/
theorem takingTheResponsesEndsTheRun : Obligations.TakingTheResponsesEndsTheRun := by
  intro s
  obtain ⟨o, ho⟩ := exists_observes s
  refine ⟨o, ho.observe, fun n => ⟨_, (ho.append (observes_takes n o.final)).observe, rfl, ?_, ?_⟩⟩
  · simp [State.runEnded]
  · rintro ⟨hin, hrsp⟩
    exact ⟨by simpa [ho.final_inbox] using hrsp, step_nil hin⟩

end Sys2Proof.Machine
end
